-- ==== Sys2Proof/Word.lean ====
section
/-! DEFINITION. The word widths of the block (00_scope.md R9, R13: every value is unsigned). -/
namespace Sys2Proof

/-- One byte of a frame (20_memory.md R70). -/
abbrev Byte := BitVec 8

/-- A 4-bit field: IPv4 version, IHL, TCP data offset (30_encoding.md R107). -/
abbrev Nibble := BitVec 4

/-- A LEN_W-bit value: a length, an offset, a port, the ethertype, the TCP offset/flags word (00_scope.md R9). -/
abbrev Half := BitVec 16

/-- A 32-bit value: a TCP sequence or acknowledgment number (30_encoding.md R104). -/
abbrev Word := BitVec 32

end Sys2Proof
end

