-- ==== Sys2Proof/Syntax.lean ====
section
/-! DEFINITION. The syntax of the block: header records, results, the operations of spec/opcode_table.json (one
constructor of Instr per row), what selects an operation (30_encoding.md R125), and the wire headers of R101, R102, R104. -/
namespace Sys2Proof

/-- A layer of the cascade, outermost first (00_scope.md R17). -/
inductive Layer where
  | eth
  | ipv4
  | tcp
deriving DecidableEq, Repr

/-- A payload descriptor `(off, len)` naming the frame-buffer bytes `[off, off+len)` (10_state.md R47). -/
structure Slice where
  off : Half
  len : Half
deriving DecidableEq, Repr

/-- What ETH_DECODE returns (41_ethernet.md R170). -/
structure EthRecord where
  dst   : Vector Byte 6
  src   : Vector Byte 6
  etype : Half
  pay   : Slice
deriving DecidableEq, Repr

/-- What IPV4_DECODE returns (42_ipv4.md R190). -/
structure Ipv4Record where
  ver   : Nibble
  hlen  : Byte
  ttl   : Byte
  proto : Byte
  src   : Vector Byte 4
  dst   : Vector Byte 4
  pay   : Slice
deriving DecidableEq, Repr

/-- The six flags, in the order of 43_tcp.md R212. -/
structure TcpFlags where
  urg : Bool
  ack : Bool
  psh : Bool
  rst : Bool
  syn : Bool
  fin : Bool
deriving DecidableEq, Repr

/-- What TCP_DECODE returns (43_tcp.md R210). -/
structure TcpRecord where
  sport : Half
  dport : Half
  seq   : Word
  ack   : Word
  doff  : Byte
  flags : TcpFlags
  pay   : Slice
deriving DecidableEq, Repr

/-- The terminal state of a transaction (10_state.md R36). -/
inductive Term where
  | ethTrunc
  | ethUnhandled
  | ipv4Trunc
  | ipv4Unhandled
  | tcpTrunc
  | tcpDone
deriving DecidableEq, Repr

/-- The Result record of DISPATCH (44_dispatch.md R230): terminal state, the records present, the final payload. -/
structure Result where
  term : Term
  eth  : Option EthRecord
  ip   : Option Ipv4Record
  tcp  : Option TcpRecord
  fin  : Slice
deriving DecidableEq, Repr

/-- The two widths of an address field (40_boundary_and_extractors.md R146: n is 4 or 6). -/
inductive AddrLen where
  | four
  | six
deriving DecidableEq, Repr

/-- The operations of the block, one constructor per row of spec/opcode_table.json, with the operands its rule lists. -/
inductive Instr where
  /-- DISPATCH(L), 44_dispatch.md R230 -/
  | dispatch (len : Half)
  /-- ETH_DECODE(b, n), 41_ethernet.md R170 -/
  | ethDecode (b n : Half)
  /-- IPV4_DECODE(b, n), 42_ipv4.md R190 -/
  | ipv4Decode (b n : Half)
  /-- ETH_UNHANDLED on the Ethernet record, 44_dispatch.md R232 -/
  | ethUnhandled (eth : EthRecord)
  /-- TCP_DECODE(b, n), 43_tcp.md R210 -/
  | tcpDecode (b n : Half)
  /-- IPV4_UNHANDLED on the Ethernet and IPv4 records, 44_dispatch.md R234 -/
  | ipv4Unhandled (eth : EthRecord) (ip : Ipv4Record)
  /-- ETH_TRUNC on the frame length, 44_dispatch.md R235 -/
  | ethTrunc (len : Half)
  /-- IPV4_TRUNC on the Ethernet record, 44_dispatch.md R236 -/
  | ipv4Trunc (eth : EthRecord)
  /-- TCP_TRUNC on the Ethernet and IPv4 records, 44_dispatch.md R237 -/
  | tcpTrunc (eth : EthRecord) (ip : Ipv4Record)
  /-- TCP_DONE on the three records, 44_dispatch.md R238 -/
  | tcpDone (eth : EthRecord) (ip : Ipv4Record) (tcp : TcpRecord)
  /-- SEL_L3 on the ethertype and the Ethernet payload, 44_dispatch.md R231 -/
  | selL3 (etype : Half) (pay : Slice)
  /-- SEL_L4 on the protocol and the IPv4 payload, 44_dispatch.md R233 -/
  | selL4 (proto : Byte) (pay : Slice)
  /-- CHECK(len, need), 40_boundary_and_extractors.md R140 -/
  | check (len need : Half)
  /-- SLICE(b, len, h), 40_boundary_and_extractors.md R142 -/
  | slice (b len : Half) (h : Byte)
  /-- RD_U8(b, o), 40_boundary_and_extractors.md R143 -/
  | rdU8 (b : Half) (o : Byte)
  /-- RD_BE16(b, o), 40_boundary_and_extractors.md R144 -/
  | rdBe16 (b : Half) (o : Byte)
  /-- RD_BE32(b, o), 40_boundary_and_extractors.md R145 -/
  | rdBe32 (b : Half) (o : Byte)
  /-- RD_BYTES(b, o, n), 40_boundary_and_extractors.md R146 -/
  | rdBytes (b : Half) (o : Byte) (n : AddrLen)
  /-- NIB_HI(x), 40_boundary_and_extractors.md R147 -/
  | nibHi (x : Byte)
  /-- NIB_LO(x), 40_boundary_and_extractors.md R147 -/
  | nibLo (x : Byte)
  /-- LEN_X4(nib), 40_boundary_and_extractors.md R148 -/
  | lenX4 (nib : Nibble)
  /-- BIT(w, n), 40_boundary_and_extractors.md R149: n is 0 to 5 -/
  | bit (w : Half) (n : Fin 6)
  /-- RESULT_WRITE(r), 44_dispatch.md R244 -/
  | resultWrite (r : Result)
deriving DecidableEq, Repr

/-- The `format` column of the opcode table (30_encoding.md R125). -/
inductive Format where
  | entry
  | ethertype16
  | ipproto8
  | terminal
  | mux
  | primitive
deriving DecidableEq, Repr

/-- The format of an operation's row in the opcode table. -/
def Instr.format : Instr → Format
  | .dispatch _ | .ethDecode _ _ => .entry
  | .ipv4Decode _ _ | .ethUnhandled _ => .ethertype16
  | .tcpDecode _ _ | .ipv4Unhandled _ _ => .ipproto8
  | .ethTrunc _ | .ipv4Trunc _ | .tcpTrunc _ _ | .tcpDone _ _ _ => .terminal
  | .selL3 _ _ | .selL4 _ _ => .mux
  | .check _ _ | .slice _ _ _ | .rdU8 _ _ | .rdBe16 _ _ | .rdBe32 _ _ | .rdBytes _ _ _ => .primitive
  | .nibHi _ | .nibLo _ | .lenX4 _ | .bit _ _ | .resultWrite _ => .primitive

/-- What the multiplexer selects after the Ethernet header (44_dispatch.md R231). -/
inductive L3Target where
  | ipv4Decode
  | ethUnhandled
deriving DecidableEq, Repr

/-- What the multiplexer selects after the IPv4 header (44_dispatch.md R233). -/
inductive L4Target where
  | tcpDecode
  | ipv4Unhandled
deriving DecidableEq, Repr

/-- What selects the next operation of a transaction in flight (30_encoding.md R115 to R118, R125). It is the cascade
position of 10_state.md R32. A discriminator is held as the frame buffer stores it, first byte first. -/
inductive Selector where
  /-- entry: ETH_DECODE, selected unconditionally (R115) -/
  | always
  /-- mux: ETH_DECODE returned a record, so SEL_L3 (R231) -/
  | ethTypeMux
  /-- the ethertype offered to the rows of format ethertype16, and the Ethernet payload (R116) -/
  | ethertype16 (disc : List Byte) (pay : Slice)
  /-- mux: IPV4_DECODE returned a record, so SEL_L4 (R233) -/
  | ipProtoMux
  /-- the protocol offered to the rows of format ipproto8, and the IPv4 payload (R117) -/
  | ipproto8 (disc : List Byte) (pay : Slice)
  /-- terminal: the decoder of this layer raised TruncatedHeader (R235 to R237) -/
  | raised (layer : Layer)
  /-- terminal: TCP_DECODE returned a record (R238) -/
  | returned
  /-- the cascade ended with this result, so RESULT_WRITE (R244) -/
  | finished (r : Result)
deriving DecidableEq, Repr

/-- The local variables of DISPATCH while a transaction is in flight (44_dispatch.md R230): the length read at
acceptance, the records decoded so far, and what selects the next operation. -/
structure Cascade where
  len : Half
  eth : Option EthRecord
  ip  : Option Ipv4Record
  tcp : Option TcpRecord
  sel : Selector
deriving DecidableEq, Repr

/-- A cascade at its start, on a frame of this length: `eth <- none; ip <- none; tcp <- none` (44_dispatch.md R230). -/
def Cascade.start (len : Half) : Cascade :=
  { len := len, eth := none, ip := none, tcp := none, sel := .always }

/-- The primitive operations that are called by name (30_encoding.md R123, R125: format primitive, encoding internal). -/
inductive Primitive where
  | check
  | slice
  | rdU8
  | rdBe16
  | rdBe32
  | rdBytes
  | nibHi
  | nibLo
  | lenX4
  | bit
deriving DecidableEq, Repr

/-- What stands for the words of an operation (30_encoding.md R125): SUBMIT with the frame length, the selection of a
cascade, or a primitive called by name with its operands as in 30_encoding.md R123. -/
inductive OpWord where
  | submit (len : Half)
  | selected (c : Cascade)
  | call (p : Primitive) (args : List Nat)
deriving DecidableEq, Repr

/-- The result registers of 10_state.md R33, in the order of their numbers 0 to 23. -/
inductive ResultReg where
  | STATUS
  | ETH_DST
  | ETH_SRC
  | ETH_TYPE
  | ETH_PAY_OFF
  | ETH_PAY_LEN
  | IP_VER
  | IP_HLEN
  | IP_TTL
  | IP_PROTO
  | IP_SRC
  | IP_DST
  | IP_PAY_OFF
  | IP_PAY_LEN
  | TCP_SPORT
  | TCP_DPORT
  | TCP_SEQ
  | TCP_ACK
  | TCP_DOFF
  | TCP_FLAGS
  | TCP_PAY_OFF
  | TCP_PAY_LEN
  | FIN_PAY_OFF
  | FIN_PAY_LEN
deriving DecidableEq, Repr

/-- The Ethernet header on the wire (30_encoding.md R101). -/
structure EthHeader where
  dst   : Vector Byte 6
  src   : Vector Byte 6
  etype : Half
deriving DecidableEq, Repr

/-- The IPv4 header on the wire, the bytes the block never reads included (30_encoding.md R102, R103). -/
structure Ipv4Header where
  ver      : Nibble
  ihl      : Nibble
  byte1    : Byte
  bytes2_7 : Vector Byte 6
  ttl      : Byte
  proto    : Byte
  byte10   : Byte
  byte11   : Byte
  src      : Vector Byte 4
  dst      : Vector Byte 4
  options  : List Byte
deriving DecidableEq, Repr

/-- The TCP header on the wire, the bits and bytes the block does not decode included (30_encoding.md R104, R105). -/
structure TcpHeader where
  sport     : Half
  dport     : Half
  seq       : Word
  ack       : Word
  doff      : Nibble
  bits11_6  : BitVec 6
  flags     : TcpFlags
  rest      : List Byte
deriving DecidableEq, Repr

end Sys2Proof
end

