-- ==== Sys2Proof/Config.lean ====
section
/-! DEFINITION. The parameters of 00_scope.md R9 and the masks and shifts of 40_boundary_and_extractors.md R150, under
the spec's own names. FB_MAP and RES_MAP are OPEN there, so they have no body; nor has the one free value. -/
namespace Sys2Proof.Config

/-- Largest frame length (00_scope.md R9); the frame buffer holds this many bytes (20_memory.md R70). -/
def MAX_FRAME_LEN : Nat := 65535
def ETH_HDR_LEN : Nat := 14
def ETHERTYPE_IPV4 : Half := 0x0800
def IPV4_MIN_LEN : Nat := 20
def IPV4_MAX_HLEN : Nat := 60
def IPPROTO_TCP : Byte := 6
def TCP_FIXED_LEN : Nat := 14
def TCP_MIN_DOFF : Nat := 20
def TCP_MAX_DOFF : Nat := 60

/-! Masks and shifts (40_boundary_and_extractors.md R150). -/

def IP_VER_SHIFT : Nat := 4
def NIB_MASK : Byte := 0xF
def LEN_SCALE_SHIFT : Nat := 2
def TCP_DOFF_SHIFT : Nat := 12
def TCP_FLAG_URG : Fin 6 := 5
def TCP_FLAG_ACK : Fin 6 := 4
def TCP_FLAG_PSH : Fin 6 := 3
def TCP_FLAG_RST : Fin 6 := 2
def TCP_FLAG_SYN : Fin 6 := 1
def TCP_FLAG_FIN : Fin 6 := 0
def TCP_FLAGS_MASK : Half := 0x3F

/-- The offset SLICE(b, len, h) returns where b + h does not fit its 16 bits. 40_boundary_and_extractors.md R142 and R152
state no such offset, so it is a free value without a body, DESIGN CHOICE (log entry 25); R151 makes it a function of the
operands. -/
opaque SLICE_OFF_OPEN : Half → Half → Byte → Half

/-- FB_MAP, OPEN (00_scope.md R9, decision D20): the frame-buffer offset placed at a host address, if any. -/
opaque FB_MAP : Nat → Option Nat

/-- RES_MAP, OPEN (00_scope.md R9, decision D9): the result register placed at a host address, if any. -/
opaque RES_MAP : Nat → Option ResultReg

end Sys2Proof.Config
end

