-- ==== Sys2Proof/WellFormed.lean ====
section
/-! DEFINITION. When an operation's operands are ones its rule admits, and when a wire header is one the formats admit. -/
namespace Sys2Proof

/-- A descriptor that names bytes of a frame: `off + len = FRAME_LEN ≤ 65535` (10_state.md R47, R152). -/
def Slice.WellFormed (p : Slice) : Bool :=
  decide (p.off.toNat + p.len.toNat ≤ Config.MAX_FRAME_LEN)

/-- A header length a length field can declare and a decoder accept: 20, 24, …, 60 (10_state.md R46). -/
def legalHeaderLen (least most : Nat) (h : Byte) : Bool :=
  decide (least ≤ h.toNat) && decide (h.toNat ≤ most) && decide (h.toNat % 4 = 0)

/-- The Ethernet payload begins at offset 14 (10_state.md R46). -/
def EthRecord.WellFormed (r : EthRecord) : Bool :=
  r.pay.WellFormed && decide (r.pay.off.toNat = Config.ETH_HDR_LEN)

/-- The IPv4 payload begins at 14 + IP_HLEN (10_state.md R41, R46). -/
def Ipv4Record.WellFormed (r : Ipv4Record) : Bool :=
  r.pay.WellFormed && legalHeaderLen Config.IPV4_MIN_LEN Config.IPV4_MAX_HLEN r.hlen
    && decide (r.pay.off.toNat = Config.ETH_HDR_LEN + r.hlen.toNat)

/-- The TCP payload begins TCP_DOFF bytes after the TCP header's start, which lies in 34 to 74 (10_state.md R42, R46). -/
def TcpRecord.WellFormed (r : TcpRecord) : Bool :=
  r.pay.WellFormed && legalHeaderLen Config.TCP_MIN_DOFF Config.TCP_MAX_DOFF r.doff
    && decide (34 + r.doff.toNat ≤ r.pay.off.toNat)
    && decide (r.pay.off.toNat ≤ 74 + r.doff.toNat)

/-- Two descriptors that end where the frame ends (10_state.md R47). -/
def Slice.sameEnd (p q : Slice) : Bool := decide (p.off.toNat + p.len.toNat = q.off.toNat + q.len.toNat)

/-- A result of DISPATCH: the records its terminal state reports (44_dispatch.md R240), every payload a suffix of the
one frame (10_state.md R41, R42, R47), and the final payload of R241. -/
def Result.WellFormed (r : Result) : Bool :=
  r.fin.WellFormed &&
    match r.term, r.eth, r.ip, r.tcp with
    | .ethTrunc, none, none, none => decide (r.fin.off = 0) && decide (r.fin.len.toNat < Config.ETH_HDR_LEN)
    | .ethUnhandled, some e, none, none =>
      decide (e.etype ≠ Config.ETHERTYPE_IPV4) && e.WellFormed && decide (r.fin = e.pay)
    | .ipv4Trunc, some e, none, none =>
      decide (e.etype = Config.ETHERTYPE_IPV4) && e.WellFormed && decide (r.fin = e.pay)
    | .ipv4Unhandled, some e, some i, none =>
      decide (e.etype = Config.ETHERTYPE_IPV4) && decide (i.proto ≠ Config.IPPROTO_TCP) && e.WellFormed && i.WellFormed
        && e.pay.sameEnd i.pay && decide (r.fin = i.pay)
    | .tcpTrunc, some e, some i, none =>
      decide (e.etype = Config.ETHERTYPE_IPV4) && decide (i.proto = Config.IPPROTO_TCP) && e.WellFormed && i.WellFormed
        && e.pay.sameEnd i.pay && decide (r.fin = i.pay)
    | .tcpDone, some e, some i, some t =>
      decide (e.etype = Config.ETHERTYPE_IPV4) && decide (i.proto = Config.IPPROTO_TCP) && e.WellFormed && i.WellFormed
        && t.WellFormed && e.pay.sameEnd i.pay && i.pay.sameEnd t.pay
        && decide (t.pay.off.toNat = i.pay.off.toNat + t.doff.toNat) && decide (r.fin = t.pay)
    | _, _, _, _ => false

/-- The operands each rule admits. A row selected by a discriminator has the discriminator of its row (R116 to R118). -/
def Instr.WellFormed : Instr → Bool
  | .dispatch _ => true
  | .ethDecode b _ => decide (b = 0)
  | .ipv4Decode b n => decide (b = 14) && Slice.WellFormed ⟨b, n⟩
  | .ethUnhandled eth => decide (eth.etype ≠ Config.ETHERTYPE_IPV4) && eth.WellFormed
  | .tcpDecode b n => decide (34 ≤ b.toNat) && decide (b.toNat ≤ 74) && Slice.WellFormed ⟨b, n⟩
  | .ipv4Unhandled eth ip =>
    decide (eth.etype = Config.ETHERTYPE_IPV4) && decide (ip.proto ≠ Config.IPPROTO_TCP) && eth.WellFormed && ip.WellFormed
  | .ethTrunc len => decide (len.toNat < Config.ETH_HDR_LEN)
  | .ipv4Trunc eth => decide (eth.etype = Config.ETHERTYPE_IPV4) && eth.WellFormed
  | .tcpTrunc eth ip =>
    decide (eth.etype = Config.ETHERTYPE_IPV4) && decide (ip.proto = Config.IPPROTO_TCP) && eth.WellFormed && ip.WellFormed
  | .tcpDone eth ip tcp =>
    decide (eth.etype = Config.ETHERTYPE_IPV4) && decide (ip.proto = Config.IPPROTO_TCP) && eth.WellFormed && ip.WellFormed
      && tcp.WellFormed
  | .selL3 _ pay => pay.WellFormed
  | .selL4 _ pay => pay.WellFormed
  | .check _ _ => true
  | .slice b len _ => Slice.WellFormed ⟨b, len⟩
  | .rdU8 b o => decide (b.toNat + o.toNat + 1 ≤ Config.MAX_FRAME_LEN)
  | .rdBe16 b o => decide (b.toNat + o.toNat + 2 ≤ Config.MAX_FRAME_LEN)
  | .rdBe32 b o => decide (b.toNat + o.toNat + 4 ≤ Config.MAX_FRAME_LEN)
  | .rdBytes b o .four => decide (b.toNat + o.toNat + 4 ≤ Config.MAX_FRAME_LEN)
  | .rdBytes b o .six => decide (b.toNat + o.toNat + 6 ≤ Config.MAX_FRAME_LEN)
  | .nibHi _ => true
  | .nibLo _ => true
  | .lenX4 _ => true
  | .bit _ _ => true
  | .resultWrite r => r.WellFormed

/-- IHL is at least 5, and the options fill the header to IHL × 4 bytes (30_encoding.md R102). -/
def Ipv4Header.WellFormed (h : Ipv4Header) : Bool :=
  decide (5 ≤ h.ihl.toNat) && decide (h.options.length + 20 = h.ihl.toNat * 4)

/-- The data offset is at least 5, and the undecoded rest fills the header to 4 × data offset bytes (30_encoding.md R104). -/
def TcpHeader.WellFormed (h : TcpHeader) : Bool :=
  decide (5 ≤ h.doff.toNat) && decide (h.rest.length + 14 = h.doff.toNat * 4)

end Sys2Proof
end

