-- ==== Sys2Proof/Decode.lean ====
section
/-! DEFINITION. Decoding: which operation a selection stands for (30_encoding.md R115 to R118, R123, R125), total, with a
named rejection. After it the encoder, and the wire encoder of the three header formats (R101, R102, R104). -/
namespace Sys2Proof

/-- Why a selection stands for no operation. -/
inductive DecodeError where
  /-- an ethertype discriminator that is not two bytes, or a protocol discriminator that is not one (R118) -/
  | discriminatorWidth
  /-- the operation's Ethernet record is absent -/
  | noEthRecord
  /-- the operation's IPv4 record is absent -/
  | noIpv4Record
  /-- the operation's TCP record is absent -/
  | noTcpRecord
  /-- a primitive called with the wrong number of operands -/
  | operandCount
  /-- an operand wider than the opcode table's `fields` give it -/
  | operandWidth
  /-- RD_BYTES with n other than 4 and 6 (R146) -/
  | addressWidth
  /-- BIT with n above 5 (R149) -/
  | bitNumber
deriving DecidableEq, Repr

/-! ### Byte order (20_memory.md R73, R74): the byte at the lower offset is the more significant -/

/-- `hi ‖ lo`. -/
def be16 (hi lo : Byte) : Half := hi ++ lo

/-- `b0 ‖ b1 ‖ b2 ‖ b3`. -/
def be32 (b0 b1 b2 b3 : Byte) : Word := b0 ++ b1 ++ b2 ++ b3

/-- A 16-bit value as the wire carries it. -/
def wire16 (v : Half) : List Byte := [v.extractLsb' 8 8, v.extractLsb' 0 8]

/-- A 32-bit value as the wire carries it. -/
def wire32 (v : Word) : List Byte :=
  [v.extractLsb' 24 8, v.extractLsb' 16 8, v.extractLsb' 8 8, v.extractLsb' 0 8]

/-! ### The rows that a discriminator selects (30_encoding.md R118) -/

/-- One row: the discriminator, masked, must equal the value. -/
structure SelectRow (w : Nat) (α : Type) where
  value  : BitVec w
  mask   : BitVec w
  target : α
deriving DecidableEq, Repr

/-- The rows of format ethertype16 in the order of their priority. -/
def ethertypeRows : List (SelectRow 16 L3Target) :=
  [⟨Config.ETHERTYPE_IPV4, 0xFFFF, .ipv4Decode⟩, ⟨0x0000, 0x0000, .ethUnhandled⟩]

/-- The rows of format ipproto8 in the order of their priority. -/
def ipprotoRows : List (SelectRow 8 L4Target) :=
  [⟨Config.IPPROTO_TCP, 0xFF, .tcpDecode⟩, ⟨0x00, 0x00, .ipv4Unhandled⟩]

/-- The first row that matches, if any. -/
def selectRow {w : Nat} {α : Type} : List (SelectRow w α) → BitVec w → Option α
  | [], _ => none
  | r :: rows, v => if v &&& r.mask = r.value then some r.target else selectRow rows v

/-- The layer-3 selection (R116). The last row matches every value, so the default here is never reached. -/
def l3Target (etype : Half) : L3Target := (selectRow ethertypeRows etype).getD .ethUnhandled

/-- The layer-4 selection (R117). The last row matches every value, so the default here is never reached. -/
def l4Target (proto : Byte) : L4Target := (selectRow ipprotoRows proto).getD .ipv4Unhandled

/-! ### Decoding -/

/-- The Ethernet record an operation works on. -/
def needEth (c : Cascade) (f : EthRecord → Instr) : Except DecodeError Instr :=
  match c.eth with
  | some e => .ok (f e)
  | none => .error .noEthRecord

/-- The Ethernet and IPv4 records an operation works on. -/
def needEthIp (c : Cascade) (f : EthRecord → Ipv4Record → Instr) : Except DecodeError Instr :=
  match c.eth, c.ip with
  | some e, some i => .ok (f e i)
  | none, _ => .error .noEthRecord
  | some _, none => .error .noIpv4Record

/-- The operation a discriminator of format ethertype16 selects (R116). -/
def decodeEthertype (c : Cascade) (disc : List Byte) (pay : Slice) : Except DecodeError Instr :=
  match disc with
  | [hi, lo] =>
    match l3Target (be16 hi lo) with
    | .ipv4Decode => .ok (.ipv4Decode pay.off pay.len)
    | .ethUnhandled => needEth c .ethUnhandled
  | _ => .error .discriminatorWidth

/-- The operation a discriminator of format ipproto8 selects (R117). -/
def decodeIpproto (c : Cascade) (disc : List Byte) (pay : Slice) : Except DecodeError Instr :=
  match disc with
  | [p] =>
    match l4Target p with
    | .tcpDecode => .ok (.tcpDecode pay.off pay.len)
    | .ipv4Unhandled => needEthIp c .ipv4Unhandled
  | _ => .error .discriminatorWidth

/-- The next operation of a cascade (R115 to R117, R125). -/
def decodeSelected (c : Cascade) : Except DecodeError Instr :=
  match c.sel with
  | .always => .ok (.ethDecode 0 c.len)
  | .ethTypeMux => needEth c fun e => .selL3 e.etype e.pay
  | .ethertype16 disc pay => decodeEthertype c disc pay
  | .ipProtoMux =>
    match c.ip with
    | some i => .ok (.selL4 i.proto i.pay)
    | none => .error .noIpv4Record
  | .ipproto8 disc pay => decodeIpproto c disc pay
  | .raised .eth => .ok (.ethTrunc c.len)
  | .raised .ipv4 => needEth c .ipv4Trunc
  | .raised .tcp => needEthIp c .tcpTrunc
  | .returned =>
    match c.tcp with
    | some t => needEthIp c fun e i => .tcpDone e i t
    | none => .error .noTcpRecord
  | .finished r => .ok (.resultWrite r)

/-- An operand of `w` bits. -/
def operand (w v : Nat) : Except DecodeError (BitVec w) :=
  if v < 2 ^ w then .ok (BitVec.ofNat w v) else .error .operandWidth

/-- The three operands of RD_U8, RD_BE16, RD_BE32: a header offset and a field offset. -/
def decodeRead (f : Half → Byte → Instr) (b o : Nat) : Except DecodeError Instr := do
  return f (← operand 16 b) (← operand 8 o)

/-- A primitive called by name, with the operand widths of the opcode table's `fields`. -/
def decodeCall : Primitive → List Nat → Except DecodeError Instr
  | .check, [len, need] => do return .check (← operand 16 len) (← operand 16 need)
  | .slice, [b, len, h] => do return .slice (← operand 16 b) (← operand 16 len) (← operand 8 h)
  | .rdU8, [b, o] => decodeRead .rdU8 b o
  | .rdBe16, [b, o] => decodeRead .rdBe16 b o
  | .rdBe32, [b, o] => decodeRead .rdBe32 b o
  | .rdBytes, [b, o, n] =>
    if n = 4 then decodeRead (fun b o => .rdBytes b o .four) b o
    else if n = 6 then decodeRead (fun b o => .rdBytes b o .six) b o
    else .error .addressWidth
  | .nibHi, [x] => do return .nibHi (← operand 8 x)
  | .nibLo, [x] => do return .nibLo (← operand 8 x)
  | .lenX4, [nib] => do return .lenX4 (← operand 4 nib)
  | .bit, [w, n] => do
    let w ← operand 16 w
    if h : n < 6 then return .bit w ⟨n, h⟩ else .error .bitNumber
  | _, _ => .error .operandCount

/-- Decoding of anything that can select an operation. -/
def decode : OpWord → Except DecodeError Instr
  | .submit len => .ok (.dispatch len)
  | .selected c => decodeSelected c
  | .call p args => decodeCall p args

/-! ### Encoding -/

/-- An Ethernet record that carries only what a multiplexer reads. -/
def bareEth (etype : Half) (pay : Slice) : EthRecord :=
  { dst := Vector.replicate 6 0, src := Vector.replicate 6 0, etype := etype, pay := pay }

/-- An IPv4 record that carries only what a multiplexer reads. -/
def bareIpv4 (proto : Byte) (pay : Slice) : Ipv4Record :=
  { ver := 0, hlen := 0, ttl := 0, proto := proto, src := Vector.replicate 4 0, dst := Vector.replicate 4 0, pay := pay }

/-- What selects a well-formed operation: the inverse of `decode`. -/
def encode : Instr → OpWord
  | .dispatch len => .submit len
  | .ethDecode _ n => .selected (Cascade.start n)
  | .ipv4Decode b n =>
    .selected { Cascade.start 0 with sel := .ethertype16 (wire16 Config.ETHERTYPE_IPV4) ⟨b, n⟩ }
  | .ethUnhandled e =>
    .selected { Cascade.start 0 with eth := some e, sel := .ethertype16 (wire16 e.etype) e.pay }
  | .tcpDecode b n => .selected { Cascade.start 0 with sel := .ipproto8 [Config.IPPROTO_TCP] ⟨b, n⟩ }
  | .ipv4Unhandled e i =>
    .selected { Cascade.start 0 with eth := some e, ip := some i, sel := .ipproto8 [i.proto] i.pay }
  | .ethTrunc len => .selected { Cascade.start len with sel := .raised .eth }
  | .ipv4Trunc e => .selected { Cascade.start 0 with eth := some e, sel := .raised .ipv4 }
  | .tcpTrunc e i => .selected { Cascade.start 0 with eth := some e, ip := some i, sel := .raised .tcp }
  | .tcpDone e i t =>
    .selected { Cascade.start 0 with eth := some e, ip := some i, tcp := some t, sel := .returned }
  | .selL3 etype pay => .selected { Cascade.start 0 with eth := some (bareEth etype pay), sel := .ethTypeMux }
  | .selL4 proto pay => .selected { Cascade.start 0 with ip := some (bareIpv4 proto pay), sel := .ipProtoMux }
  | .check len need => .call .check [len.toNat, need.toNat]
  | .slice b len h => .call .slice [b.toNat, len.toNat, h.toNat]
  | .rdU8 b o => .call .rdU8 [b.toNat, o.toNat]
  | .rdBe16 b o => .call .rdBe16 [b.toNat, o.toNat]
  | .rdBe32 b o => .call .rdBe32 [b.toNat, o.toNat]
  | .rdBytes b o .four => .call .rdBytes [b.toNat, o.toNat, 4]
  | .rdBytes b o .six => .call .rdBytes [b.toNat, o.toNat, 6]
  | .nibHi x => .call .nibHi [x.toNat]
  | .nibLo x => .call .nibLo [x.toNat]
  | .lenX4 nib => .call .lenX4 [nib.toNat]
  | .bit w n => .call .bit [w.toNat, n.val]
  | .resultWrite r => .selected { Cascade.start 0 with sel := .finished r }

/-- The format a selection belongs to (R125). -/
def OpWord.format : OpWord → Format
  | .submit _ => .entry
  | .selected c =>
    match c.sel with
    | .always => .entry
    | .ethTypeMux | .ipProtoMux => .mux
    | .ethertype16 _ _ => .ethertype16
    | .ipproto8 _ _ => .ipproto8
    | .raised _ | .returned => .terminal
    | .finished _ => .primitive
  | .call _ _ => .primitive

/-! ### The words of the opcode table -/

/-- The cascade at which a discriminator of the opcode table is offered to its rows: a 16-bit one is an ethertype, an
8-bit one an IPv4 protocol, each laid out as the frame buffer stores it, the operands it has beside it zero. -/
def tableCascade (nbits w : Nat) : Option Cascade :=
  match nbits with
  | 16 =>
    let v : Half := BitVec.ofNat 16 w
    some { Cascade.start 0 with eth := some (bareEth v ⟨0, 0⟩), sel := .ethertype16 (wire16 v) ⟨0, 0⟩ }
  | 8 =>
    let v : Byte := BitVec.ofNat 8 w
    some { Cascade.start 0 with eth := some (bareEth Config.ETHERTYPE_IPV4 ⟨0, 0⟩), ip := some (bareIpv4 v ⟨0, 0⟩),
                                sel := .ipproto8 [v] ⟨0, 0⟩ }
  | _ => none

/-- The operation the decoder reads from a word of the opcode table. -/
def decodeTableWord (nbits w : Nat) : Option Instr :=
  match tableCascade nbits w with
  | none => none
  | some c =>
    match decodeSelected c with
    | .ok i => some i
    | .error _ => none

/-! ### The wire encoder: headers laid out by 30_encoding.md R101, R102, R104, R105 -/

/-- R101. -/
def EthHeader.bytes (h : EthHeader) : List Byte := h.dst.toList ++ h.src.toList ++ wire16 h.etype

/-- R102, R103. -/
def Ipv4Header.bytes (h : Ipv4Header) : List Byte :=
  [h.ver ++ h.ihl, h.byte1] ++ h.bytes2_7.toList ++ [h.ttl, h.proto, h.byte10, h.byte11] ++ h.src.toList ++ h.dst.toList
    ++ h.options

/-- The offset/flags word (R105). -/
def TcpHeader.word (h : TcpHeader) : Half :=
  h.doff ++ h.bits11_6 ++ BitVec.ofBool h.flags.urg ++ BitVec.ofBool h.flags.ack ++ BitVec.ofBool h.flags.psh
    ++ BitVec.ofBool h.flags.rst ++ BitVec.ofBool h.flags.syn ++ BitVec.ofBool h.flags.fin

/-- R104. -/
def TcpHeader.bytes (h : TcpHeader) : List Byte :=
  wire16 h.sport ++ wire16 h.dport ++ wire32 h.seq ++ wire32 h.ack ++ wire16 h.word ++ h.rest

end Sys2Proof
end

