-- ==== Sys2Proof/Machine/Input.lean ====
section
/-! DEFINITION. What the outside world does to the block (30_encoding.md R124, 70_reset_and_hazards.md R290, R300), and
the schedule in which the host and the instances take turns (60_exceptions.md R281). -/
namespace Sys2Proof.Machine

/-- One action of the host on one instance (30_encoding.md R124). Lengths and offsets are natural numbers, so that a
frame the block cannot hold can be written down and is refused (R300 (a)). -/
inductive HostAction where
  /-- `FB[o..] := bytes` -/
  | writeFb (o : Nat) (bytes : List Byte)
  /-- `LEN := L` -/
  | setLen (l : Nat)
  /-- `SUBMIT` -/
  | submit
  /-- `WAIT` -/
  | wait
  /-- `READ R` -/
  | read (r : ResultReg)
  /-- `DECODE bytes`, which stands for four actions, taken one after the other (log entry 26) -/
  | decode (bytes : List Byte)
  /-- a read of BUSY (10_state.md R49) -/
  | readBusy
  /-- a read of FRAME_LEN (10_state.md R48) -/
  | readLen
  /-- a read of n bytes of FB, as a host does that follows a payload descriptor (20_memory.md R90) -/
  | readFb (o n : Nat)
  /-- a write to a result register (10_state.md R34) -/
  | writeReg (r : ResultReg) (v : Nat)
  /-- a write to BUSY (10_state.md R49) -/
  | writeBusy (v : Bool)
  /-- a read at a host address, resolved by RES_MAP and FB_MAP (00_scope.md R9) -/
  | readAt (addr : Nat)
  /-- a write of one byte at a host address, resolved by RES_MAP and FB_MAP (00_scope.md R9) -/
  | writeAt (addr : Nat) (v : Byte)
deriving DecidableEq, Repr

/-- One turn of the schedule. `inst` is an instance number (60_exceptions.md R280). -/
inductive Event where
  /-- reset of the block (70_reset_and_hazards.md R290, R291) -/
  | reset
  /-- the host acts on an instance -/
  | host (inst : Nat) (a : HostAction)
  /-- an instance performs its whole transaction in one step (decision D1) -/
  | complete (inst : Nat)
  /-- an instance performs the next single operation of its transaction -/
  | advance (inst : Nat)
  /-- an instance evaluates one primitive in the notation of 30_encoding.md R123 -/
  | evaluate (inst : Nat) (p : Primitive) (args : List Nat)
deriving DecidableEq, Repr

end Sys2Proof.Machine
end

