-- ==== Sys2Proof/Machine/State.lean ====
section
/-! DEFINITION. The state of the machine: N_INST instances with the registers and the frame buffer of 10_state.md R30, the
schedule of turns still to come, and State.reset. Plain data throughout. -/
namespace Sys2Proof.Machine

/-- A frame buffer's contents (20_memory.md R70): offsets strictly rising, no byte equal to `Memory.fill` listed. -/
abbrev Memory := List Host.Cell

/-- What an offset that is not listed reads as. DESIGN CHOICE (log entry 1, unsafe): the spec gives FB any value. -/
def Memory.fill : Byte := 0

/-- A value that an operation returns, or that the host reads. -/
inductive Value where
  | nothing
  /-- CHECK -/
  | bool (b : Bool)
  /-- BIT, BUSY -/
  | u1 (v : BitVec 1)
  | u4 (v : Nibble)
  | u6 (v : BitVec 6)
  | u8 (v : Byte)
  | u16 (v : Half)
  | u32 (v : Word)
  /-- RD_BYTES, a register that is a byte array, bytes of FB -/
  | bytes (l : List Byte)
  /-- SLICE -/
  | slice (p : Slice)
  /-- SLICE, when its check fails -/
  | fail
  /-- a decoder raised TruncatedHeader at this layer -/
  | truncated (l : Layer)
  | eth (r : EthRecord)
  | ipv4 (r : Ipv4Record)
  | tcp (r : TcpRecord)
  /-- SEL_L3 -/
  | selL3 (t : L3Target)
  /-- SEL_L4 -/
  | selL4 (t : L4Target)
  /-- a terminal state -/
  | result (r : Result)
deriving DecidableEq, Repr

/-- Registers 1 to 5 (10_state.md R33, R40). -/
structure EthRegs where
  dst    : Vector Byte 6
  src    : Vector Byte 6
  etype  : Half
  payOff : Half
  payLen : Half
deriving DecidableEq, Repr

/-- Registers 6 to 13 (10_state.md R33, R41). -/
structure IpRegs where
  ver    : Nibble
  hlen   : Byte
  ttl    : Byte
  proto  : Byte
  src    : Vector Byte 4
  dst    : Vector Byte 4
  payOff : Half
  payLen : Half
deriving DecidableEq, Repr

/-- Registers 14 to 21 (10_state.md R33, R42, R43). -/
structure TcpRegs where
  sport  : Half
  dport  : Half
  seq    : Word
  ack    : Word
  doff   : Byte
  flags  : BitVec 6
  payOff : Half
  payLen : Half
deriving DecidableEq, Repr

/-- The result register set (10_state.md R33). A record the spec calls absent is `none`: its registers hold no value
(R45), which is the spec's own state and its reset state (R53). Registers 22 and 23 are `fin`. -/
structure ResultRegs where
  status : Half
  eth    : Option EthRegs
  ip     : Option IpRegs
  tcp    : Option TcpRegs
  fin    : Option Slice
deriving DecidableEq, Repr

/-- One parser instance (10_state.md R30, R52). -/
structure Instance where
  /-- the frame buffer FB (20_memory.md R70) -/
  fb       : Memory
  /-- FRAME_LEN; `none` is the spec's "no value" (10_state.md R48, R53) -/
  frameLen : Option Half
  /-- BUSY (10_state.md R49) -/
  busy     : Bool
  /-- registers 0 to 23 -/
  regs     : ResultRegs
  /-- the request in flight that BUSY marks, with DISPATCH's local variables (10_state.md R32, R52) -/
  cascade  : Cascade
  /-- the model's own: what the last single operation returned to its caller (log entry 4) -/
  ret      : Value
deriving DecidableEq, Repr

/-- The machine. The instances are `before ++ here :: after` in the order of their numbers, so there is at least one
(60_exceptions.md R280: N_INST ≥ 1); `here` is the one whose turn it is, and its number is `before.length`. -/
structure State where
  before : List Instance
  here   : Instance
  after  : List Instance
  /-- the model's own: the turns still to come, the host's program among them (30_encoding.md R124, log entry 3) -/
  events : List Event
  /-- the model's own: what the host's last read returned (log entry 5) -/
  hostData : Value
deriving DecidableEq, Repr

/-- Why the machine stops. -/
inductive Fault where
  /-- Raised by MemRead and MemBytes when asked for a byte outside `[0, FRAME_LEN)`. Safe: 40_boundary_and_extractors.md
  R141 calls such a read a fault of the model. -/
  | readOutsideFrame
  /-- Raised by a host read of a register that holds no value, never by an operation of the block. Safe:
  93_implementation_defined.md I6 and I7 treat the read as a fault, and so does 10_state.md R45;
  70_reset_and_hazards.md R294 tells the host not to make it. -/
  | readOfNoValue
  /-- Raised by a host read of a STATUS value that is never produced. Safe: 93_implementation_defined.md I8. -/
  | illegalStatus
  /-- Raised by a host access to an FB offset above 65534. Safe: 20_memory.md R70 gives no such byte. -/
  | noSuchFbOffset
deriving DecidableEq, Repr

/-- Why the machine gives a step no meaning. -/
inductive Refusal where
  /-- Raised by exec for an operation without a meaning: none is left. Safe. -/
  | notModelled (mnemonic : String)
  /-- Raised by a host write of a frame or a length above 65535. Safe: 70_reset_and_hazards.md R300 (a). -/
  | frameTooLong
  /-- Raised by SUBMIT before FRAME_LEN was written. Safe: 70_reset_and_hazards.md R300 (b). -/
  | frameLenNeverWritten
  /-- Raised by a host write of FB or FRAME_LEN while BUSY = 1. Safe: 70_reset_and_hazards.md R300 (c). -/
  | hostWroteDuringTransaction
  /-- Raised by SUBMIT while BUSY = 1. Safe: 70_reset_and_hazards.md R300 (d). -/
  | submitWhileBusy
  /-- Raised by a turn given to an instance number that is not below N_INST. Safe: 60_exceptions.md R280. -/
  | noSuchInstance
  /-- Raised by a turn whose selection stands for no operation. Safe: 30_encoding.md R118, R125 select every operation. -/
  | undecodable (e : DecodeError)
  /-- Raised by a host access at an address where RES_MAP and FB_MAP place nothing. Safe: 00_scope.md R9 leaves it open. -/
  | notPlaced
deriving DecidableEq, Repr

/-! ### Updates -/

def Instance.setFb (m : Instance) (fb : Memory) : Instance := { m with fb := fb }
def Instance.setFrameLen (m : Instance) (l : Option Half) : Instance := { m with frameLen := l }
def Instance.setBusy (m : Instance) (b : Bool) : Instance := { m with busy := b }
def Instance.setRegs (m : Instance) (r : ResultRegs) : Instance := { m with regs := r }
def Instance.setCascade (m : Instance) (c : Cascade) : Instance := { m with cascade := c }
def Instance.setRet (m : Instance) (v : Value) : Instance := { m with ret := v }
def State.setHere (s : State) (m : Instance) : State := { s with here := m }
def State.setEvents (s : State) (es : List Event) : State := { s with events := es }
def State.setHostData (s : State) (v : Value) : State := { s with hostData := v }

/-- The instances in the order of their numbers. -/
def State.instances (s : State) : List Instance := s.before ++ s.here :: s.after

/-! ### Reset -/

/-- STATUS = 0x0000, registers 1 to 23 no value (10_state.md R53). -/
def ResultRegs.reset : ResultRegs := { status := 0, eth := none, ip := none, tcp := none, fin := none }

/-- One instance after reset (10_state.md R53, 70_reset_and_hazards.md R290). -/
def Instance.reset : Instance :=
  { fb := [], frameLen := none, busy := false, regs := ResultRegs.reset, cascade := Cascade.start 0, ret := .nothing }

/-- The block after reset with N_INST = `extra` + 1 instances (00_scope.md R9: N_INST is OPEN). -/
def State.resetWith (extra : Nat) : State :=
  { before := [], here := Instance.reset, after := List.replicate extra Instance.reset, events := [], hostData := .nothing }

/-- The block after reset. DESIGN CHOICE (log entry 2): N_INST = 1 here, every other number by `State.resetWith`. -/
def State.reset : State := State.resetWith 0

end Sys2Proof.Machine
end

