-- ==== Sys2Proof/Machine/Ops.lean ====
section
/-! DEFINITION. The operations every meaning is built from: the frame buffer, the guarded reads, the frame-boundary
checker, the checked cut, raising and catching TruncatedHeader, and returning a value. -/
namespace Sys2Proof.Machine

/-! ### The frame buffer's contents -/

/-- The byte at an offset. -/
def Memory.read : Memory → Nat → Byte
  | [], _ => Memory.fill
  | (k, v) :: m, a => if a = k then v else Memory.read m a

/-- Writing one byte keeps the offsets rising and lists no byte equal to `Memory.fill`. -/
def Memory.write : Memory → Nat → Byte → Memory
  | [], a, v => if v = Memory.fill then [] else [(a, v)]
  | (k, w) :: m, a, v =>
    if a < k then (if v = Memory.fill then (k, w) :: m else (a, v) :: (k, w) :: m)
    else if a = k then (if v = Memory.fill then m else (a, v) :: m)
    else (k, w) :: Memory.write m a v

/-- Bytes written at rising offsets from `o`. -/
def Memory.writeBytes : Memory → Nat → List Byte → Memory
  | m, _, [] => m
  | m, o, b :: bs => Memory.writeBytes (Memory.write m o b) (o + 1) bs

/-- The canonical form from offset `lo` on: offsets strictly rising, below 65535, no byte equal to `Memory.fill`. -/
def Memory.wfFrom : Nat → Memory → Bool
  | _, [] => true
  | lo, (k, v) :: m =>
    decide (lo ≤ k) && decide (k < Config.MAX_FRAME_LEN) && decide (v ≠ Memory.fill) && Memory.wfFrom (k + 1) m

/-- The canonical form. -/
def Memory.wf (m : Memory) : Bool := Memory.wfFrom 0 m

/-! ### Guarded reads (00_scope.md R15, 40_boundary_and_extractors.md R141) -/

/-- How many bytes the frame has: FRAME_LEN, and none before it is written. -/
def Instance.frameBytes (m : Instance) : Nat :=
  match m.frameLen with
  | some l => l.toNat
  | none => 0

/-- The value of a read of `n` bytes from offset `a`. A read outside `[0, FRAME_LEN)` is a fault of the model (R141). -/
def admitted {α : Type} (m : Instance) (a n : Nat) (value : α) : Except Fault α :=
  if a + n ≤ m.frameBytes then .ok value else .error .readOutsideFrame

/-- `MemRead(addr, 1)`. -/
def memRead8 (m : Instance) (a : Nat) : Except Fault Byte := admitted m a 1 (m.fb.read a)

/-- `MemRead(addr, 2)`, big-endian. -/
def memRead16 (m : Instance) (a : Nat) : Except Fault Half :=
  admitted m a 2 (be16 (m.fb.read a) (m.fb.read (a + 1)))

/-- `MemRead(addr, 4)`, big-endian. -/
def memRead32 (m : Instance) (a : Nat) : Except Fault Word :=
  admitted m a 4 (be32 (m.fb.read a) (m.fb.read (a + 1)) (m.fb.read (a + 2)) (m.fb.read (a + 3)))

/-- The n bytes from offset `a`: element i is `FB[a+i]`. -/
def Memory.bytes (fb : Memory) (a n : Nat) : Vector Byte n := Vector.ofFn fun i => fb.read (a + i)

/-- `MemBytes(addr, n)`. -/
def memBytes (m : Instance) (a n : Nat) : Except Fault (Vector Byte n) := admitted m a n (m.fb.bytes a n)

/-! ### The frame-boundary checker and the checked cut -/

/-- CHECK(len, need) (40_boundary_and_extractors.md R140). -/
def checkLen (len need : Half) : Bool := decide (need.toNat ≤ len.toNat)

/-- The offset of a cut: b + h. Where that does not fit 16 bits the spec states no offset (R152 says that it never
happens), and it is the free value Config.SLICE_OFF_OPEN (log entry 25). -/
def cutOffset (b len : Half) (h : Byte) : Half :=
  if b.toNat + h.toNat ≤ Config.MAX_FRAME_LEN then b + h.zeroExtend 16 else Config.SLICE_OFF_OPEN b len h

/-- SLICE(b, len, h) (40_boundary_and_extractors.md R142): `none` when its check fails. -/
def cutSlice (b len : Half) (h : Byte) : Option Slice :=
  if checkLen len (h.zeroExtend 16) = false then none
  else some { off := cutOffset b len h, len := len - h.zeroExtend 16 }

/-! ### Outcomes of a decoder -/

/-- What a decoder answers: a record, or TruncatedHeader (60_exceptions.md R262). -/
inductive Decoded (α : Type) where
  | record (r : α)
  | truncated (l : Layer)
deriving DecidableEq, Repr

/-- The payload cut of a decoder: a failed SLICE is TruncatedHeader at the decoder's layer (R142). -/
def cutPayload {α : Type} (l : Layer) (b len : Half) (h : Byte) (k : Slice → α) : Decoded α :=
  match cutSlice b len h with
  | none => .truncated l
  | some p => .record (k p)

/-! ### Returning a value and selecting the next operation -/

/-- An operation that returns a value to its caller and changes nothing else (40_boundary_and_extractors.md R151). -/
def returns (v : Value) (s : State) : State := s.setHere (s.here.setRet v)

/-- An operation that returns a value and moves the cascade on. -/
def moves (v : Value) (c : Cascade) (s : State) : State := s.setHere ((s.here.setRet v).setCascade c)

/-- Raising TruncatedHeader (60_exceptions.md R262, R269): the decoder returns no record, saves nothing, changes no
mode, and the terminal state of its layer is selected next. -/
def raiseTruncated (l : Layer) (s : State) : State :=
  moves (.truncated l) { s.here.cascade with sel := .raised l } s

/-- An operation that evaluates a primitive. -/
def answer {α : Type} (r : Except Fault α) (f : α → Value) (s : State) : Host.Outcome State Fault Refusal :=
  match r with
  | .error e => .fault e
  | .ok a => .next (returns (f a) s)

/-- A decoder's end: TruncatedHeader is raised, or the record is kept and the next operation selected. -/
def settle {α : Type} (r : Except Fault (Decoded α)) (keep : α → State → State) (s : State) :
    Host.Outcome State Fault Refusal :=
  match r with
  | .error e => .fault e
  | .ok (.truncated l) => .next (raiseTruncated l s)
  | .ok (.record a) => .next (keep a s)

/-! ### Instances -/

/-- The turn passes to instance `i`, if there is one (60_exceptions.md R280). No instance changes. -/
def State.focus (s : State) (i : Nat) : Option State :=
  match s.instances.drop i with
  | [] => none
  | m :: rest => some { s with before := s.instances.take i, here := m, after := rest }

/-- One instance at reset: everything but FB (70_reset_and_hazards.md R290, R291). -/
def Instance.resetKeepingFb (m : Instance) : Instance := Instance.reset.setFb m.fb

/-- Reset of the block: every instance; FB is neither read nor changed (70_reset_and_hazards.md R290). -/
def State.resetInstances (s : State) : State :=
  { s with before := s.before.map Instance.resetKeepingFb
           here := s.here.resetKeepingFb
           after := s.after.map Instance.resetKeepingFb }

end Sys2Proof.Machine
end

