-- ==== Sys2Proof/Machine/Operands.lean ====
section
/-! DEFINITION. The endian-aware field extractors (40_boundary_and_extractors.md R143 to R149), with the named masks and
shifts of R150. -/
namespace Sys2Proof.Machine

/-- RD_U8(b, o) (R143). -/
def readU8 (m : Instance) (b : Half) (o : Byte) : Except Fault Byte := memRead8 m (b.toNat + o.toNat)

/-- RD_BE16(b, o) (R144). -/
def readBe16 (m : Instance) (b : Half) (o : Byte) : Except Fault Half := memRead16 m (b.toNat + o.toNat)

/-- RD_BE32(b, o) (R145). -/
def readBe32 (m : Instance) (b : Half) (o : Byte) : Except Fault Word := memRead32 m (b.toNat + o.toNat)

/-- RD_BYTES(b, o, n) (R146). -/
def readBytes (m : Instance) (b : Half) (o : Byte) (n : Nat) : Except Fault (Vector Byte n) :=
  memBytes m (b.toNat + o.toNat) n

/-- NIB_HI(x) = x[7:4] (R147). -/
def nibbleHi (x : Byte) : Nibble := ((x >>> Config.IP_VER_SHIFT) &&& Config.NIB_MASK).truncate 4

/-- NIB_LO(x) = x[3:0] (R147). -/
def nibbleLo (x : Byte) : Nibble := (x &&& Config.NIB_MASK).truncate 4

/-- LEN_X4(nib) = nib × 4 (R148). -/
def lengthX4 (nib : Nibble) : Byte := nib.zeroExtend 8 <<< Config.LEN_SCALE_SHIFT

/-- BIT(w, n) = w[n] (R149). -/
def bitOf (w : Half) (n : Fin 6) : BitVec 1 := ((w >>> n.val) &&& 1).truncate 1

/-- w[15:12] (30_encoding.md R105, R107). -/
def dataOffset (w : Half) : Nibble := (w >>> Config.TCP_DOFF_SHIFT).truncate 4

/-- The host's numeric view of a MAC address: element 0 most significant (10_state.md R40). -/
def macNumber (a : Vector Byte 6) : BitVec 48 := a[0] ++ a[1] ++ a[2] ++ a[3] ++ a[4] ++ a[5]

/-- The host's numeric view of an IPv4 address: element 0 most significant (10_state.md R41). -/
def ipv4Number (a : Vector Byte 4) : BitVec 32 := a[0] ++ a[1] ++ a[2] ++ a[3]

end Sys2Proof.Machine
end

