-- ==== Sys2Proof/Machine/Flags.lean ====
section
/-! DEFINITION. STATUS and its fields (10_state.md R35 to R38), the TCP flags and their packing (R43, 43_tcp.md R210). -/
namespace Sys2Proof.Machine

/-! ### TCP flags -/

/-- The six flags of the offset/flags word, each by BIT (43_tcp.md R210). -/
def flagsOf (w : Half) : TcpFlags :=
  { urg := bitOf w Config.TCP_FLAG_URG = 1
    ack := bitOf w Config.TCP_FLAG_ACK = 1
    psh := bitOf w Config.TCP_FLAG_PSH = 1
    rst := bitOf w Config.TCP_FLAG_RST = 1
    syn := bitOf w Config.TCP_FLAG_SYN = 1
    fin := bitOf w Config.TCP_FLAG_FIN = 1 }

/-- `TCP_FLAGS = URG‖ACK‖PSH‖RST‖SYN‖FIN` (44_dispatch.md R244). -/
def packFlags (f : TcpFlags) : BitVec 6 :=
  BitVec.ofBool f.urg ++ BitVec.ofBool f.ack ++ BitVec.ofBool f.psh ++ BitVec.ofBool f.rst ++ BitVec.ofBool f.syn
    ++ BitVec.ofBool f.fin

/-! ### STATUS -/

/-- The TERM code (10_state.md R36). -/
def termCode : Term → BitVec 3
  | .ethTrunc => 0
  | .ethUnhandled => 1
  | .ipv4Trunc => 2
  | .ipv4Unhandled => 3
  | .tcpTrunc => 4
  | .tcpDone => 5

/-- CAUSE: 1 is TruncatedHeader, 0 no error (10_state.md R37). -/
def termCause : Term → BitVec 4
  | .ethTrunc | .ipv4Trunc | .tcpTrunc => 1
  | .ethUnhandled | .ipv4Unhandled | .tcpDone => 0

/-- The STATUS word, reserved bits 0 (10_state.md R35). -/
def statusWord (done ethV ipV tcpV : Bool) (term : BitVec 3) (cause : BitVec 4) : Half :=
  0#4 ++ cause ++ 0#1 ++ term ++ BitVec.ofBool tcpV ++ BitVec.ofBool ipV ++ BitVec.ofBool ethV ++ BitVec.ofBool done

def statusDone (w : Half) : Bool := w.getLsbD 0
def statusEthV (w : Half) : Bool := w.getLsbD 1
def statusIpV (w : Half) : Bool := w.getLsbD 2
def statusTcpV (w : Half) : Bool := w.getLsbD 3
def statusTerm (w : Half) : BitVec 3 := w.extractLsb' 4 3
def statusReserved7 (w : Half) : BitVec 1 := w.extractLsb' 7 1
def statusCause (w : Half) : BitVec 4 := w.extractLsb' 8 4
def statusReserved15 (w : Half) : BitVec 4 := w.extractLsb' 12 4

/-- A STATUS value with reserved bits 0, TERM at most 5 and CAUSE at most 1 (10_state.md R35, I8). -/
def statusLegal (w : Half) : Bool :=
  decide (statusReserved7 w = 0) && decide (statusReserved15 w = 0) && decide ((statusTerm w).toNat ≤ 5)
    && decide ((statusCause w).toNat ≤ 1)

/-! ### The result register set -/

/-- The Ethernet registers of a record. -/
def ethRegs (r : EthRecord) : EthRegs :=
  { dst := r.dst, src := r.src, etype := r.etype, payOff := r.pay.off, payLen := r.pay.len }

/-- The IPv4 registers of a record. -/
def ipRegs (r : Ipv4Record) : IpRegs :=
  { ver := r.ver, hlen := r.hlen, ttl := r.ttl, proto := r.proto, src := r.src, dst := r.dst, payOff := r.pay.off,
    payLen := r.pay.len }

/-- The TCP registers of a record. -/
def tcpRegs (r : TcpRecord) : TcpRegs :=
  { sport := r.sport, dport := r.dport, seq := r.seq, ack := r.ack, doff := r.doff, flags := packFlags r.flags,
    payOff := r.pay.off, payLen := r.pay.len }

/-- Every result register, as RESULT_WRITE leaves it (44_dispatch.md R244). -/
def resultRegs (r : Result) : ResultRegs :=
  { status := statusWord true r.eth.isSome r.ip.isSome r.tcp.isSome (termCode r.term) (termCause r.term)
    eth := r.eth.map ethRegs
    ip := r.ip.map ipRegs
    tcp := r.tcp.map tcpRegs
    fin := some r.fin }

/-- The value of a result register, if it holds one (10_state.md R33, R45). -/
def regValue (r : ResultRegs) : ResultReg → Option Value
  | .STATUS => some (.u16 r.status)
  | .ETH_DST => r.eth.map fun e => .bytes e.dst.toList
  | .ETH_SRC => r.eth.map fun e => .bytes e.src.toList
  | .ETH_TYPE => r.eth.map fun e => .u16 e.etype
  | .ETH_PAY_OFF => r.eth.map fun e => .u16 e.payOff
  | .ETH_PAY_LEN => r.eth.map fun e => .u16 e.payLen
  | .IP_VER => r.ip.map fun i => .u4 i.ver
  | .IP_HLEN => r.ip.map fun i => .u8 i.hlen
  | .IP_TTL => r.ip.map fun i => .u8 i.ttl
  | .IP_PROTO => r.ip.map fun i => .u8 i.proto
  | .IP_SRC => r.ip.map fun i => .bytes i.src.toList
  | .IP_DST => r.ip.map fun i => .bytes i.dst.toList
  | .IP_PAY_OFF => r.ip.map fun i => .u16 i.payOff
  | .IP_PAY_LEN => r.ip.map fun i => .u16 i.payLen
  | .TCP_SPORT => r.tcp.map fun t => .u16 t.sport
  | .TCP_DPORT => r.tcp.map fun t => .u16 t.dport
  | .TCP_SEQ => r.tcp.map fun t => .u32 t.seq
  | .TCP_ACK => r.tcp.map fun t => .u32 t.ack
  | .TCP_DOFF => r.tcp.map fun t => .u8 t.doff
  | .TCP_FLAGS => r.tcp.map fun t => .u6 t.flags
  | .TCP_PAY_OFF => r.tcp.map fun t => .u16 t.payOff
  | .TCP_PAY_LEN => r.tcp.map fun t => .u16 t.payLen
  | .FIN_PAY_OFF => r.fin.map fun p => .u16 p.off
  | .FIN_PAY_LEN => r.fin.map fun p => .u16 p.len

/-- The number of a result register (10_state.md R33). -/
def regNumber : ResultReg → Nat
  | .STATUS => 0
  | .ETH_DST => 1
  | .ETH_SRC => 2
  | .ETH_TYPE => 3
  | .ETH_PAY_OFF => 4
  | .ETH_PAY_LEN => 5
  | .IP_VER => 6
  | .IP_HLEN => 7
  | .IP_TTL => 8
  | .IP_PROTO => 9
  | .IP_SRC => 10
  | .IP_DST => 11
  | .IP_PAY_OFF => 12
  | .IP_PAY_LEN => 13
  | .TCP_SPORT => 14
  | .TCP_DPORT => 15
  | .TCP_SEQ => 16
  | .TCP_ACK => 17
  | .TCP_DOFF => 18
  | .TCP_FLAGS => 19
  | .TCP_PAY_OFF => 20
  | .TCP_PAY_LEN => 21
  | .FIN_PAY_OFF => 22
  | .FIN_PAY_LEN => 23

end Sys2Proof.Machine
end

