-- ==== Sys2Proof/Machine/Decoders.lean ====
section
/-! DEFINITION. The three layer decoders (41_ethernet.md R170, 42_ipv4.md R190, 43_tcp.md R210), each by its rule's
pseudocode, with its checks in the rule's order (60_exceptions.md R267). -/
namespace Sys2Proof.Machine

/-- ETH_DECODE(b, n) (R170). -/
def ethDecode (m : Instance) (b n : Half) : Except Fault (Decoded EthRecord) :=
  if checkLen n (BitVec.ofNat 16 Config.ETH_HDR_LEN) = false then .ok (.truncated .eth)
  else do
    let dst ← readBytes m b 0 6
    let src ← readBytes m b 6 6
    let etype ← readBe16 m b 12
    return cutPayload .eth b n (BitVec.ofNat 8 Config.ETH_HDR_LEN) fun pay =>
      { dst := dst, src := src, etype := etype, pay := pay }

/-- IPV4_DECODE(b, n) (R190). -/
def ipv4Decode (m : Instance) (b n : Half) : Except Fault (Decoded Ipv4Record) :=
  if checkLen n (BitVec.ofNat 16 Config.IPV4_MIN_LEN) = false then .ok (.truncated .ipv4)
  else do
    let b0 ← readU8 m b 0
    let hlen := lengthX4 (nibbleLo b0)
    if checkLen n (hlen.zeroExtend 16) = false then return .truncated .ipv4
    else if hlen.toNat < Config.IPV4_MIN_LEN then return .truncated .ipv4
    else
      let ttl ← readU8 m b 8
      let proto ← readU8 m b 9
      let src ← readBytes m b 12 4
      let dst ← readBytes m b 16 4
      return cutPayload .ipv4 b n hlen fun pay =>
        { ver := nibbleHi b0, hlen := hlen, ttl := ttl, proto := proto, src := src, dst := dst, pay := pay }

/-- TCP_DECODE(b, n) (R210). -/
def tcpDecode (m : Instance) (b n : Half) : Except Fault (Decoded TcpRecord) :=
  if checkLen n (BitVec.ofNat 16 Config.TCP_FIXED_LEN) = false then .ok (.truncated .tcp)
  else do
    let sport ← readBe16 m b 0
    let dport ← readBe16 m b 2
    let seq ← readBe32 m b 4
    let ack ← readBe32 m b 8
    let w ← readBe16 m b 12
    let doff := lengthX4 (dataOffset w)
    if doff.toNat < Config.TCP_MIN_DOFF then return .truncated .tcp
    else if checkLen n (doff.zeroExtend 16) = false then return .truncated .tcp
    else
      return cutPayload .tcp b n doff fun pay =>
        { sport := sport, dport := dport, seq := seq, ack := ack, doff := doff, flags := flagsOf w, pay := pay }

/-- The Ethernet record is kept, and SEL_L3 is next (44_dispatch.md R230, R231). -/
def keepEth (r : EthRecord) (s : State) : State :=
  moves (.eth r) { s.here.cascade with eth := some r, sel := .ethTypeMux } s

/-- The IPv4 record is kept, and SEL_L4 is next (44_dispatch.md R230, R233). -/
def keepIpv4 (r : Ipv4Record) (s : State) : State :=
  moves (.ipv4 r) { s.here.cascade with ip := some r, sel := .ipProtoMux } s

/-- The TCP record is kept, and TCP_DONE is next (44_dispatch.md R230, R238). -/
def keepTcp (r : TcpRecord) (s : State) : State :=
  moves (.tcp r) { s.here.cascade with tcp := some r, sel := .returned } s

/-- ETH_DECODE (R170). -/
def execEthDecode (b n : Half) (s : State) : Host.Outcome State Fault Refusal :=
  settle (ethDecode s.here b n) keepEth s

/-- IPV4_DECODE (R190). -/
def execIpv4Decode (b n : Half) (s : State) : Host.Outcome State Fault Refusal :=
  settle (ipv4Decode s.here b n) keepIpv4 s

/-- TCP_DECODE (R210). -/
def execTcpDecode (b n : Half) (s : State) : Host.Outcome State Fault Refusal :=
  settle (tcpDecode s.here b n) keepTcp s

end Sys2Proof.Machine
end

