-- ==== Sys2Proof/Machine/Cascade.lean ====
section
/-! DEFINITION. The multiplexers, the six terminal states, the result update and the whole cascade (44_dispatch.md R230
to R245). -/
namespace Sys2Proof.Machine

/-! ### The multiplexers -/

/-- SEL_L3 (R231): the ethertype is offered to the rows of format ethertype16. -/
def execSelL3 (etype : Half) (pay : Slice) (s : State) : Host.Outcome State Fault Refusal :=
  .next (moves (.selL3 (l3Target etype)) { s.here.cascade with sel := .ethertype16 (wire16 etype) pay } s)

/-- SEL_L4 (R233): the protocol is offered to the rows of format ipproto8. -/
def execSelL4 (proto : Byte) (pay : Slice) (s : State) : Host.Outcome State Fault Refusal :=
  .next (moves (.selL4 (l4Target proto)) { s.here.cascade with sel := .ipproto8 [proto] pay } s)

/-! ### The terminal states (R232, R234 to R238), with the final payload of R241 -/

/-- R235. -/
def ethTruncResult (len : Half) : Result :=
  { term := .ethTrunc, eth := none, ip := none, tcp := none, fin := { off := 0, len := len } }

/-- R232. -/
def ethUnhandledResult (eth : EthRecord) : Result :=
  { term := .ethUnhandled, eth := some eth, ip := none, tcp := none, fin := eth.pay }

/-- R236. -/
def ipv4TruncResult (eth : EthRecord) : Result :=
  { term := .ipv4Trunc, eth := some eth, ip := none, tcp := none, fin := eth.pay }

/-- R234. -/
def ipv4UnhandledResult (eth : EthRecord) (ip : Ipv4Record) : Result :=
  { term := .ipv4Unhandled, eth := some eth, ip := some ip, tcp := none, fin := ip.pay }

/-- R237. -/
def tcpTruncResult (eth : EthRecord) (ip : Ipv4Record) : Result :=
  { term := .tcpTrunc, eth := some eth, ip := some ip, tcp := none, fin := ip.pay }

/-- R238. -/
def tcpDoneResult (eth : EthRecord) (ip : Ipv4Record) (tcp : TcpRecord) : Result :=
  { term := .tcpDone, eth := some eth, ip := some ip, tcp := some tcp, fin := tcp.pay }

/-- The cascade has ended with this result, and RESULT_WRITE is next. -/
def concludes (r : Result) (s : State) : State :=
  moves (.result r) { s.here.cascade with sel := .finished r } s

/-- ETH_TRUNC (R235). -/
def execEthTrunc (len : Half) (s : State) : Host.Outcome State Fault Refusal :=
  .next (concludes (ethTruncResult len) s)

/-- ETH_UNHANDLED (R232). -/
def execEthUnhandled (eth : EthRecord) (s : State) : Host.Outcome State Fault Refusal :=
  .next (concludes (ethUnhandledResult eth) s)

/-- IPV4_TRUNC (R236). -/
def execIpv4Trunc (eth : EthRecord) (s : State) : Host.Outcome State Fault Refusal :=
  .next (concludes (ipv4TruncResult eth) s)

/-- IPV4_UNHANDLED (R234). -/
def execIpv4Unhandled (eth : EthRecord) (ip : Ipv4Record) (s : State) : Host.Outcome State Fault Refusal :=
  .next (concludes (ipv4UnhandledResult eth ip) s)

/-- TCP_TRUNC (R237). -/
def execTcpTrunc (eth : EthRecord) (ip : Ipv4Record) (s : State) : Host.Outcome State Fault Refusal :=
  .next (concludes (tcpTruncResult eth ip) s)

/-- TCP_DONE (R238). -/
def execTcpDone (eth : EthRecord) (ip : Ipv4Record) (tcp : TcpRecord) (s : State) : Host.Outcome State Fault Refusal :=
  .next (concludes (tcpDoneResult eth ip tcp) s)

/-! ### The result update -/

/-- The indivisible update that ends a transaction (R244, R245): every result register, and BUSY. The request in flight
is gone with it, and nothing of the transaction is left beside the result (10_state.md R30). -/
def writeResult (r : Result) (s : State) : State :=
  s.setHere ((((s.here.setRegs (resultRegs r)).setBusy false).setCascade (Cascade.start 0)).setRet .nothing)

/-- RESULT_WRITE (R244). -/
def execResultWrite (r : Result) (s : State) : Host.Outcome State Fault Refusal :=
  .next (writeResult r s)

/-! ### The cascade -/

/-- The pseudocode of DISPATCH (R230): a TruncatedHeader is caught and becomes the terminal state of its layer. -/
def runCascade (m : Instance) (len : Half) : Except Fault Result :=
  match ethDecode m 0 len with
  | .error f => .error f
  | .ok (.truncated _) => .ok (ethTruncResult len)
  | .ok (.record eth) =>
    match l3Target eth.etype with
    | .ethUnhandled => .ok (ethUnhandledResult eth)
    | .ipv4Decode =>
      match ipv4Decode m eth.pay.off eth.pay.len with
      | .error f => .error f
      | .ok (.truncated _) => .ok (ipv4TruncResult eth)
      | .ok (.record ip) =>
        match l4Target ip.proto with
        | .ipv4Unhandled => .ok (ipv4UnhandledResult eth ip)
        | .tcpDecode =>
          match tcpDecode m ip.pay.off ip.pay.len with
          | .error f => .error f
          | .ok (.truncated _) => .ok (tcpTruncResult eth ip)
          | .ok (.record tcp) => .ok (tcpDoneResult eth ip tcp)

/-- DISPATCH (R230): the cascade, then RESULT_WRITE, in one step (decision D1). -/
def execDispatch (len : Half) (s : State) : Host.Outcome State Fault Refusal :=
  match runCascade s.here len with
  | .error f => .fault f
  | .ok r => .next (writeResult r s)

end Sys2Proof.Machine
end

