-- ==== Sys2Proof/Machine/Primitives.lean ====
section
/-! DEFINITION. The meanings of the primitive operations (40_boundary_and_extractors.md R140 to R149). Each returns a value
and changes nothing else (R151). -/
namespace Sys2Proof.Machine

/-- CHECK (R140). -/
def execCheck (len need : Half) (s : State) : Host.Outcome State Fault Refusal :=
  .next (returns (.bool (checkLen len need)) s)

/-- SLICE (R142). -/
def execSlice (b len : Half) (h : Byte) (s : State) : Host.Outcome State Fault Refusal :=
  .next (returns (match cutSlice b len h with | some p => .slice p | none => .fail) s)

/-- RD_U8 (R143). -/
def execRdU8 (b : Half) (o : Byte) (s : State) : Host.Outcome State Fault Refusal :=
  answer (readU8 s.here b o) .u8 s

/-- RD_BE16 (R144). -/
def execRdBe16 (b : Half) (o : Byte) (s : State) : Host.Outcome State Fault Refusal :=
  answer (readBe16 s.here b o) .u16 s

/-- RD_BE32 (R145). -/
def execRdBe32 (b : Half) (o : Byte) (s : State) : Host.Outcome State Fault Refusal :=
  answer (readBe32 s.here b o) .u32 s

/-- RD_BYTES (R146). -/
def execRdBytes (b : Half) (o : Byte) (n : AddrLen) (s : State) : Host.Outcome State Fault Refusal :=
  match n with
  | .four => answer (readBytes s.here b o 4) (fun v => .bytes v.toList) s
  | .six => answer (readBytes s.here b o 6) (fun v => .bytes v.toList) s

/-- NIB_HI (R147). -/
def execNibHi (x : Byte) (s : State) : Host.Outcome State Fault Refusal :=
  .next (returns (.u4 (nibbleHi x)) s)

/-- NIB_LO (R147). -/
def execNibLo (x : Byte) (s : State) : Host.Outcome State Fault Refusal :=
  .next (returns (.u4 (nibbleLo x)) s)

/-- LEN_X4 (R148). -/
def execLenX4 (nib : Nibble) (s : State) : Host.Outcome State Fault Refusal :=
  .next (returns (.u8 (lengthX4 nib)) s)

/-- BIT (R149). -/
def execBit (w : Half) (n : Fin 6) (s : State) : Host.Outcome State Fault Refusal :=
  .next (returns (.u1 (bitOf w n)) s)

end Sys2Proof.Machine
end

