-- ==== Sys2Proof/Machine/Dispatch.lean ====
section
/-! DEFINITION. The meaning of every operation, one arm per row of spec/opcode_table.json. -/
namespace Sys2Proof.Machine

def exec (i : Instr) (s : State) : Host.Outcome State Fault Refusal :=
  match i with
  | .dispatch len => Sys2Proof.Machine.execDispatch len s
  | .ethDecode b n => Sys2Proof.Machine.execEthDecode b n s
  | .ipv4Decode b n => Sys2Proof.Machine.execIpv4Decode b n s
  | .ethUnhandled eth => Sys2Proof.Machine.execEthUnhandled eth s
  | .tcpDecode b n => Sys2Proof.Machine.execTcpDecode b n s
  | .ipv4Unhandled eth ip => Sys2Proof.Machine.execIpv4Unhandled eth ip s
  | .ethTrunc len => Sys2Proof.Machine.execEthTrunc len s
  | .ipv4Trunc eth => Sys2Proof.Machine.execIpv4Trunc eth s
  | .tcpTrunc eth ip => Sys2Proof.Machine.execTcpTrunc eth ip s
  | .tcpDone eth ip tcp => Sys2Proof.Machine.execTcpDone eth ip tcp s
  | .selL3 etype pay => Sys2Proof.Machine.execSelL3 etype pay s
  | .selL4 proto pay => Sys2Proof.Machine.execSelL4 proto pay s
  | .check len need => Sys2Proof.Machine.execCheck len need s
  | .slice b len h => Sys2Proof.Machine.execSlice b len h s
  | .rdU8 b o => Sys2Proof.Machine.execRdU8 b o s
  | .rdBe16 b o => Sys2Proof.Machine.execRdBe16 b o s
  | .rdBe32 b o => Sys2Proof.Machine.execRdBe32 b o s
  | .rdBytes b o n => Sys2Proof.Machine.execRdBytes b o n s
  | .nibHi x => Sys2Proof.Machine.execNibHi x s
  | .nibLo x => Sys2Proof.Machine.execNibLo x s
  | .lenX4 nib => Sys2Proof.Machine.execLenX4 nib s
  | .bit w n => Sys2Proof.Machine.execBit w n s
  | .resultWrite r => Sys2Proof.Machine.execResultWrite r s

end Sys2Proof.Machine
end

