-- ==== Sys2Proof/Machine/Turns.lean ====
section
/-! DEFINITION. What one turn of the schedule does: the host's actions with its duties (10_state.md R34,
70_reset_and_hazards.md R300), the turns of an instance, and reset. -/
namespace Sys2Proof.Machine

/-! ### The host's actions -/

/-- `FB[o..] := bytes` (30_encoding.md R124), refused by R300 (a) and (c). -/
def hostWriteFb (o : Nat) (bytes : List Byte) (s : State) : Host.Outcome State Fault Refusal :=
  if s.here.busy = true then .refused .hostWroteDuringTransaction
  else if Config.MAX_FRAME_LEN < bytes.length then .refused .frameTooLong
  else if bytes ≠ [] ∧ Config.MAX_FRAME_LEN < o + bytes.length then .fault .noSuchFbOffset
  else .next (s.setHere (s.here.setFb (s.here.fb.writeBytes o bytes)))

/-- `LEN := L`, refused by R300 (a) and (c). -/
def hostSetLen (l : Nat) (s : State) : Host.Outcome State Fault Refusal :=
  if s.here.busy = true then .refused .hostWroteDuringTransaction
  else if Config.MAX_FRAME_LEN < l then .refused .frameTooLong
  else .next (s.setHere (s.here.setFrameLen (some (BitVec.ofNat 16 l))))

/-- `SUBMIT`: BUSY becomes 1, and the length is read at acceptance (10_state.md R49, 44_dispatch.md R230), refused by
R300 (b) and (d). -/
def hostSubmit (s : State) : Host.Outcome State Fault Refusal :=
  if s.here.busy = true then .refused .submitWhileBusy
  else
    match s.here.frameLen with
    | none => .refused .frameLenNeverWritten
    | some l => .next (s.setHere (((s.here.setBusy true).setCascade (Cascade.start l)).setRet .nothing))

/-- The host obtains a value. -/
def hostObtains (v : Value) (s : State) : Host.Outcome State Fault Refusal := .next (s.setHostData v)

/-- `READ R` (10_state.md R34). While BUSY = 1 it returns the previous transaction's value. Where the register holds no value
the read is a fault: of an absent layer by 10_state.md R45 and 93_implementation_defined.md I6, after reset and before the
register is written by I7. A STATUS that is never produced: I8. -/
def hostRead (r : ResultReg) (s : State) : Host.Outcome State Fault Refusal :=
  match regValue s.here.regs r with
  | none => .fault .readOfNoValue
  | some v =>
    if r = .STATUS ∧ statusLegal s.here.regs.status = false then .fault .illegalStatus
    else hostObtains v s

/-- A read of FRAME_LEN (10_state.md R48). After reset, before it is written, it holds no value (R53) and the read is a fault
(93_implementation_defined.md I7). -/
def hostReadLen (s : State) : Host.Outcome State Fault Refusal :=
  match s.here.frameLen with
  | none => .fault .readOfNoValue
  | some l => hostObtains (.u16 l) s

/-- A read of n bytes of FB: what FB then holds (20_memory.md R90, 70_reset_and_hazards.md R301). -/
def hostReadFb (o n : Nat) (s : State) : Host.Outcome State Fault Refusal :=
  if n ≠ 0 ∧ Config.MAX_FRAME_LEN < o + n then .fault .noSuchFbOffset
  else hostObtains (.bytes (s.here.fb.bytes o n).toList) s

/-- A read at a host address, by the OPEN placements (00_scope.md R9). -/
def hostReadAt (addr : Nat) (s : State) : Host.Outcome State Fault Refusal :=
  match Config.RES_MAP addr with
  | some r => hostRead r s
  | none =>
    match Config.FB_MAP addr with
    | some o => hostReadFb o 1 s
    | none => .refused .notPlaced

/-- A write of one byte at a host address, by the OPEN placements. A result register is not changed (10_state.md R34). -/
def hostWriteAt (addr : Nat) (v : Byte) (s : State) : Host.Outcome State Fault Refusal :=
  match Config.RES_MAP addr with
  | some _ => .next s
  | none =>
    match Config.FB_MAP addr with
    | some o => hostWriteFb o [v] s
    | none => .refused .notPlaced

/-- The four actions DECODE stands for (30_encoding.md R124). DESIGN CHOICE (log entry 26): they are put at the head of the
schedule, so that nothing comes between them; a host that leaves room lists the four apart. -/
def decodeActions (bytes : List Byte) : List HostAction :=
  [.writeFb 0 bytes, .setLen bytes.length, .submit, .wait]

/-- `WAIT`: the host waits until BUSY = 0. A request in flight completes (70_reset_and_hazards.md R305) before the wait
is over, so the wait stays at the head of the schedule until then. -/
def hostWait (i : Nat) (s : State) : Host.Outcome State Fault Refusal :=
  if s.here.busy = true then exec (.dispatch s.here.cascade.len) (s.setEvents (.host i .wait :: s.events))
  else .next s

/-- One action of the host on the instance whose turn it is, instance `i`. -/
def hostAct (i : Nat) (a : HostAction) (s : State) : Host.Outcome State Fault Refusal :=
  match a with
  | .writeFb o bytes => hostWriteFb o bytes s
  | .setLen l => hostSetLen l s
  | .submit => hostSubmit s
  | .wait => hostWait i s
  | .read r => hostRead r s
  | .decode bytes => .next (s.setEvents ((decodeActions bytes).map (.host i) ++ s.events))
  | .readBusy => hostObtains (.u1 (BitVec.ofBool s.here.busy)) s
  | .readLen => hostReadLen s
  | .readFb o n => hostReadFb o n s
  | .writeReg _ _ => .next s
  | .writeBusy _ => .next s
  | .readAt addr => hostReadAt addr s
  | .writeAt addr v => hostWriteAt addr v s

/-! ### The turns of an instance -/

/-- An operation that is decoded and run. -/
def runWord (w : OpWord) (s : State) : Host.Outcome State Fault Refusal :=
  match decode w with
  | .error e => .refused (.undecodable e)
  | .ok i => exec i s

/-- The whole transaction in one step (decision D1): the operation SUBMIT selected. An idle instance waits
(60_exceptions.md R286). -/
def completeTurn (s : State) : Host.Outcome State Fault Refusal :=
  if s.here.busy = true then runWord (.submit s.here.cascade.len) s else .next s

/-- The next single operation of the transaction. An idle instance waits (60_exceptions.md R286). -/
def advanceTurn (s : State) : Host.Outcome State Fault Refusal :=
  if s.here.busy = true then runWord (.selected s.here.cascade) s else .next s

/-- The turn passes to instance `i`, which does `f`. -/
def onInstance (i : Nat) (f : State → Host.Outcome State Fault Refusal) (s : State) :
    Host.Outcome State Fault Refusal :=
  match s.focus i with
  | none => .refused .noSuchInstance
  | some t => f t

/-- One turn, already taken off the schedule. -/
def takeTurn (e : Event) (s : State) : Host.Outcome State Fault Refusal :=
  match e with
  | .reset => .next s.resetInstances
  | .host i a => onInstance i (hostAct i a) s
  | .complete i => onInstance i completeTurn s
  | .advance i => onInstance i advanceTurn s
  | .evaluate i p args => onInstance i (runWord (.call p args)) s

/-- One step: the first turn of the schedule. With none left, nothing acts and nothing changes (60_exceptions.md R286). -/
def nextTurn (s : State) : Host.Outcome State Fault Refusal :=
  match s.events with
  | [] => .next s
  | e :: rest => takeTurn e (s.setEvents rest)

/-- A word of the opcode table placed where the instance whose turn it is selects its next operation: the cascade offers
that discriminator, the request is in flight, and the instance has the next turn. -/
def placeWord (s : State) (nbits w : Nat) : State :=
  match tableCascade nbits w with
  | none => s
  | some c =>
    (s.setHere ((s.here.setCascade c).setBusy true)).setEvents (.advance s.before.length :: s.events)

end Sys2Proof.Machine
end

