-- ==== Sys2Proof/Safety.lean ====
section
/-! DEFINITION. What a safe run keeps: the legal values of the result register set (10_state.md R46), the consistency of
the request in flight, and the faults that only the host can cause. -/
namespace Sys2Proof.Machine

/-- An Ethernet record of a frame of `len` bytes (10_state.md R40). -/
def ethFits (len : Half) (e : EthRecord) : Bool :=
  decide (e.pay.off.toNat = Config.ETH_HDR_LEN) && decide (e.pay.off.toNat + e.pay.len.toNat = len.toNat)

/-- An IPv4 record of a frame of `len` bytes (10_state.md R41, R46). -/
def ipv4Fits (len : Half) (i : Ipv4Record) : Bool :=
  legalHeaderLen Config.IPV4_MIN_LEN Config.IPV4_MAX_HLEN i.hlen
    && decide (i.pay.off.toNat = Config.ETH_HDR_LEN + i.hlen.toNat)
    && decide (i.pay.off.toNat + i.pay.len.toNat = len.toNat)

/-- A TCP record of a frame of `len` bytes behind an IPv4 record (10_state.md R42, R46). -/
def tcpFits (len : Half) (i : Ipv4Record) (t : TcpRecord) : Bool :=
  legalHeaderLen Config.TCP_MIN_DOFF Config.TCP_MAX_DOFF t.doff
    && decide (t.pay.off.toNat = i.pay.off.toNat + t.doff.toNat)
    && decide (t.pay.off.toNat + t.pay.len.toNat = len.toNat)

/-- The ethertype selected IPV4_DECODE (44_dispatch.md R231). -/
def isIpv4 (e : EthRecord) : Bool := decide (e.etype = Config.ETHERTYPE_IPV4)

/-- The protocol selected TCP_DECODE (44_dispatch.md R233). -/
def isTcp (i : Ipv4Record) : Bool := decide (i.proto = Config.IPPROTO_TCP)

/-- A request in flight is at one of the places 44_dispatch.md R230 passes through. -/
def cascadeConsistent (c : Cascade) : Bool :=
  match c.sel, c.eth, c.ip, c.tcp with
  | .always, none, none, none => true
  | .ethTypeMux, some e, none, none => ethFits c.len e
  | .ethertype16 d p, some e, none, none => ethFits c.len e && decide (d = wire16 e.etype) && decide (p = e.pay)
  | .ipProtoMux, some e, some i, none => ethFits c.len e && isIpv4 e && ipv4Fits c.len i
  | .ipproto8 d p, some e, some i, none =>
    ethFits c.len e && isIpv4 e && ipv4Fits c.len i && decide (d = [i.proto]) && decide (p = i.pay)
  | .raised .eth, none, none, none => decide (c.len.toNat < Config.ETH_HDR_LEN)
  | .raised .ipv4, some e, none, none => ethFits c.len e && isIpv4 e
  | .raised .tcp, some e, some i, none => ethFits c.len e && isIpv4 e && ipv4Fits c.len i && isTcp i
  | .returned, some e, some i, some t =>
    ethFits c.len e && isIpv4 e && ipv4Fits c.len i && isTcp i && tcpFits c.len i t
  | .finished r, _, _, _ => r.WellFormed && decide (r.fin.off.toNat + r.fin.len.toNat = c.len.toNat)
  | _, _, _, _ => false

/-- The result register set holds the reset values or one whole, legal result of a transaction (10_state.md R46, R53,
44_dispatch.md R244, R245). -/
def ResultRegs.legal (r : ResultRegs) : Prop :=
  r = ResultRegs.reset ∨ ∃ res : Result, res.WellFormed = true ∧ r = resultRegs res

/-- What holds of an instance between steps. -/
structure Instance.Inv (m : Instance) : Prop where
  /-- the frame buffer is in canonical form, all of it at offsets 0 to 65534 -/
  fbCanonical : m.fb.wf = true
  /-- the result registers are legal -/
  regsLegal : m.regs.legal
  /-- an idle instance holds nothing of a transaction (10_state.md R30) -/
  idleBlank : m.busy = false → m.cascade = Cascade.start 0
  /-- a request in flight is consistent with FRAME_LEN (20_memory.md R84) -/
  inFlight : m.busy = true → m.frameLen = some m.cascade.len ∧ cascadeConsistent m.cascade = true

/-- What holds of the machine between steps. -/
def State.Inv (s : State) : Prop := ∀ m ∈ s.instances, m.Inv

/-- FB and FRAME_LEN of an instance hold this frame (20_memory.md R70). -/
def Instance.holdsFrame (m : Instance) (bytes : List Byte) : Prop :=
  bytes.length ≤ Config.MAX_FRAME_LEN ∧ m.frameLen = some (BitVec.ofNat 16 bytes.length)
    ∧ ∀ k, k < bytes.length → bytes[k]? = some (m.fb.read k)

/-- A descriptor given by its two numbers. -/
def sliceOf (off len : Nat) : Slice := { off := BitVec.ofNat 16 off, len := BitVec.ofNat 16 len }

/-- The faults a host can cause by what it reads or writes; every other fault is the model's own. -/
def Fault.ofHost : Fault → Bool
  | .readOfNoValue | .illegalStatus | .noSuchFbOffset => true
  | .readOutsideFrame => false

/-- A turn that a run of the block takes: any but the evaluation of a primitive on operands of the reader's choice. -/
def Event.ofRun : Event → Bool
  | .evaluate _ _ _ => false
  | .reset | .host _ _ | .complete _ | .advance _ => true

end Sys2Proof.Machine
end

