-- ==== Sys2Proof/Certificates/Slice0/Obligations.lean ====
section
/-! DEFINITION. What the model is claimed to do, one statement per definition, from the numbered rules of the spec. -/
open Sys2Proof Sys2Proof.Machine

/-! ## Encoding -/

/-- 30_encoding.md R115 to R118, R123, R124: words written out from the rows and the notation, and what they decode to. A
word of the opcode table carries no payload: the zero operands of the first two clauses are the model's choice (log
entry 6). -/
def Obligations.WordsDecodeToTheirRows : Prop :=
  decodeTableWord 16 0x0800 = some (.ipv4Decode 0 0)
  ∧ decodeTableWord 8 0x06 = some (.tcpDecode 0 0)
  ∧ decode (.submit 54) = .ok (.dispatch 54)
  ∧ decode (.selected (Cascade.start 54)) = .ok (.ethDecode 0 54)
  ∧ decode (.selected { Cascade.start 54 with sel := .ethertype16 [0x08, 0x00] ⟨14, 40⟩ }) = .ok (.ipv4Decode 14 40)
  ∧ decode (.selected { Cascade.start 54 with sel := .ipproto8 [0x06] ⟨34, 20⟩ }) = .ok (.tcpDecode 34 20)
  ∧ decode (.selected { Cascade.start 13 with sel := .raised .eth }) = .ok (.ethTrunc 13)
  ∧ decode (.call .check [13, 14]) = .ok (.check 13 14)
  ∧ decode (.call .bit [0x5018, 4]) = .ok (.bit 0x5018 4)

/-- Every well-formed operation is decoded from its encoding, with every operand. -/
def Obligations.DecodeOfEncodeIsTheOperation : Prop :=
  ∀ i : Instr, i.WellFormed = true → decode (encode i) = .ok i

/-- 30_encoding.md R118: the whole discriminator is compared, one value selects a decoder and every other value the
default row. -/
def Obligations.OneRowAppliesToEveryDiscriminator : Prop :=
  (∀ (hi lo : Byte) (c : Cascade) (e : EthRecord) (pay : Slice), c.eth = some e →
    decode (.selected { c with sel := .ethertype16 [hi, lo] pay })
      = if hi.toNat = 0x08 ∧ lo.toNat = 0x00 then .ok (.ipv4Decode pay.off pay.len) else .ok (.ethUnhandled e))
  ∧ (∀ (p : Byte) (c : Cascade) (e : EthRecord) (i : Ipv4Record) (pay : Slice), c.eth = some e → c.ip = some i →
    decode (.selected { c with sel := .ipproto8 [p] pay })
      = if p.toNat = 6 then .ok (.tcpDecode pay.off pay.len) else .ok (.ipv4Unhandled e i))

/-- A frame laid out by the header formats of 30_encoding.md R101, R102, R104, R105, with any undecoded bytes, IPv4
options, TCP options and data, is decoded to exactly the fields laid out. -/
def Obligations.WireFrameIsDecodedFieldByField : Prop :=
  ∀ (s : State) (e : EthHeader) (i : Ipv4Header) (t : TcpHeader) (data : List Byte),
    let frame := e.bytes ++ i.bytes ++ t.bytes ++ data
    let hlen := i.ihl.toNat * 4
    let doff := t.doff.toNat * 4
    e.etype = 0x0800 → i.proto = 6 → i.WellFormed = true → t.WellFormed = true → s.here.holdsFrame frame →
    ∃ u, exec (.dispatch (BitVec.ofNat 16 frame.length)) s = .next u
      ∧ u.here.busy = false
      ∧ u.here.regs.status = 0x005F
      ∧ u.here.regs.eth = some { dst := e.dst, src := e.src, etype := 0x0800, payOff := 14,
                                 payLen := BitVec.ofNat 16 (hlen + doff + data.length) }
      ∧ u.here.regs.ip = some { ver := i.ver, hlen := BitVec.ofNat 8 hlen, ttl := i.ttl, proto := 6, src := i.src,
                                dst := i.dst, payOff := BitVec.ofNat 16 (14 + hlen),
                                payLen := BitVec.ofNat 16 (doff + data.length) }
      ∧ u.here.regs.tcp = some { sport := t.sport, dport := t.dport, seq := t.seq, ack := t.ack,
                                 doff := BitVec.ofNat 8 doff, flags := packFlags t.flags,
                                 payOff := BitVec.ofNat 16 (14 + hlen + doff), payLen := BitVec.ofNat 16 data.length }
      ∧ u.here.regs.fin = some (sliceOf (14 + hlen + doff) data.length)

/-! ## The primitives: each completes, with the value its rule gives, and changes nothing but the value it returns -/

/-- 40_boundary_and_extractors.md R140. -/
def Obligations.CheckComparesNeedWithLength : Prop :=
  ∀ (len need : Half) (s : State),
    exec (.check len need) s = .next (s.setHere (s.here.setRet (.bool (decide (need.toNat ≤ len.toNat)))))

/-- 40_boundary_and_extractors.md R142: the failed check, and the cut. Where b + h does not fit 16 bits the spec states no
offset: the cut still completes, with its length, and the offset is a free value, the model's choice (log entry 25). -/
def Obligations.SliceCutsOrFails : Prop :=
  ∀ (b len : Half) (h : Byte) (s : State),
    (len.toNat < h.toNat → exec (.slice b len h) s = .next (s.setHere (s.here.setRet .fail)))
    ∧ (h.toNat ≤ len.toNat → b.toNat + h.toNat ≤ 65535 →
        ∃ p : Slice, exec (.slice b len h) s = .next (s.setHere (s.here.setRet (.slice p)))
          ∧ p.off.toNat = b.toNat + h.toNat ∧ p.len.toNat = len.toNat - h.toNat)
    ∧ (h.toNat ≤ len.toNat → 65535 < b.toNat + h.toNat →
        ∃ p : Slice, exec (.slice b len h) s = .next (s.setHere (s.here.setRet (.slice p)))
          ∧ p.len.toNat = len.toNat - h.toNat)

/-- 40_boundary_and_extractors.md R143. -/
def Obligations.ReadU8AnswersTheByte : Prop :=
  ∀ (b : Half) (o : Byte) (s : State), b.toNat + o.toNat + 1 ≤ s.here.frameBytes →
    exec (.rdU8 b o) s = .next (s.setHere (s.here.setRet (.u8 (s.here.fb.read (b.toNat + o.toNat)))))

/-- 40_boundary_and_extractors.md R144: the value is `256 × FB[b+o] + FB[b+o+1]`. -/
def Obligations.ReadBe16IsBigEndian : Prop :=
  ∀ (b : Half) (o : Byte) (s : State), b.toNat + o.toNat + 2 ≤ s.here.frameBytes →
    ∃ v : Half, exec (.rdBe16 b o) s = .next (s.setHere (s.here.setRet (.u16 v)))
      ∧ v.toNat = 256 * (s.here.fb.read (b.toNat + o.toNat)).toNat + (s.here.fb.read (b.toNat + o.toNat + 1)).toNat

/-- 40_boundary_and_extractors.md R145. -/
def Obligations.ReadBe32IsBigEndian : Prop :=
  ∀ (b : Half) (o : Byte) (s : State), b.toNat + o.toNat + 4 ≤ s.here.frameBytes →
    ∃ v : Word, exec (.rdBe32 b o) s = .next (s.setHere (s.here.setRet (.u32 v)))
      ∧ v.toNat = 16777216 * (s.here.fb.read (b.toNat + o.toNat)).toNat
          + 65536 * (s.here.fb.read (b.toNat + o.toNat + 1)).toNat
          + 256 * (s.here.fb.read (b.toNat + o.toNat + 2)).toNat + (s.here.fb.read (b.toNat + o.toNat + 3)).toNat

/-- 40_boundary_and_extractors.md R146, for both widths. -/
def Obligations.ReadBytesKeepsWireOrder : Prop :=
  ∀ (b : Half) (o : Byte) (n : AddrLen) (s : State),
    let k := match n with | .four => 4 | .six => 6
    b.toNat + o.toNat + k ≤ s.here.frameBytes →
    ∃ l : List Byte, exec (.rdBytes b o n) s = .next (s.setHere (s.here.setRet (.bytes l)))
      ∧ l.length = k ∧ ∀ j, j < k → l[j]? = some (s.here.fb.read (b.toNat + o.toNat + j))

/-- 40_boundary_and_extractors.md R141, last sentence: a read outside `[0, FRAME_LEN)` is a fault of the model, never a
value. -/
def Obligations.ReadsOutsideTheFrameStop : Prop :=
  ∀ (b : Half) (o : Byte) (s : State),
    (s.here.frameBytes < b.toNat + o.toNat + 1 → exec (.rdU8 b o) s = .fault .readOutsideFrame)
    ∧ (s.here.frameBytes < b.toNat + o.toNat + 2 → exec (.rdBe16 b o) s = .fault .readOutsideFrame)
    ∧ (s.here.frameBytes < b.toNat + o.toNat + 4 → exec (.rdBe32 b o) s = .fault .readOutsideFrame)
    ∧ (s.here.frameBytes < b.toNat + o.toNat + 4 → exec (.rdBytes b o .four) s = .fault .readOutsideFrame)
    ∧ (s.here.frameBytes < b.toNat + o.toNat + 6 → exec (.rdBytes b o .six) s = .fault .readOutsideFrame)

/-- 40_boundary_and_extractors.md R147: NIB_HI is x[7:4], NIB_LO is x[3:0]. -/
def Obligations.NibblesSplitTheByte : Prop :=
  ∀ (x : Byte) (s : State),
    ∃ hi lo : Nibble, exec (.nibHi x) s = .next (s.setHere (s.here.setRet (.u4 hi)))
      ∧ exec (.nibLo x) s = .next (s.setHere (s.here.setRet (.u4 lo)))
      ∧ hi.toNat = x.toNat / 16 ∧ lo.toNat = x.toNat % 16

/-- 40_boundary_and_extractors.md R148. -/
def Obligations.LenX4IsTimesFour : Prop :=
  ∀ (nib : Nibble) (s : State),
    ∃ v : Byte, exec (.lenX4 nib) s = .next (s.setHere (s.here.setRet (.u8 v))) ∧ v.toNat = nib.toNat * 4

/-- 40_boundary_and_extractors.md R149: `(w >> n) & 1`. -/
def Obligations.BitIsTheNumberedBit : Prop :=
  ∀ (w : Half) (n : Fin 6) (s : State),
    ∃ v : BitVec 1, exec (.bit w n) s = .next (s.setHere (s.here.setRet (.u1 v)))
      ∧ v.toNat = w.toNat / 2 ^ n.val % 2

/-- 40_boundary_and_extractors.md R151: a primitive that answers changes only the value it returns, and that value
depends on its operands and on admitted bytes of the frame alone. -/
def Obligations.PrimitivesArePure : Prop :=
  ∀ (i : Instr) (s : State), i.format = .primitive → (∀ r, i ≠ .resultWrite r) →
    (∀ t, exec i s = .next t → t = s.setHere (s.here.setRet t.here.ret))
    ∧ ∀ s' t : State, s'.here.frameLen = s.here.frameLen →
        (∀ a, a < s.here.frameBytes → s'.here.fb.read a = s.here.fb.read a) →
        exec i s = .next t → ∃ t', exec i s' = .next t' ∧ t'.here.ret = t.here.ret

/-! ## The decoders, on any slice of the frame -/

/-- 41_ethernet.md R170, with what selects it (30_encoding.md R115). -/
def Obligations.EthDecodeReadsTheHeader : Prop :=
  (∀ L : Half, decode (.selected (Cascade.start L)) = .ok (.ethDecode 0 L))
  ∧ ∀ (b n : Half) (s : State), b.toNat + n.toNat ≤ s.here.frameBytes →
    (n.toNat < 14 →
      exec (.ethDecode b n) s
        = .next (s.setHere ((s.here.setRet (.truncated .eth)).setCascade { s.here.cascade with sel := .raised .eth })))
    ∧ (14 ≤ n.toNat → ∃ r : EthRecord,
        exec (.ethDecode b n) s
          = .next (s.setHere ((s.here.setRet (.eth r)).setCascade
              { s.here.cascade with eth := some r, sel := .ethTypeMux }))
        ∧ (∀ j (h : j < 6), r.dst[j] = s.here.fb.read (b.toNat + j))
        ∧ (∀ j (h : j < 6), r.src[j] = s.here.fb.read (b.toNat + 6 + j))
        ∧ r.etype.toNat = 256 * (s.here.fb.read (b.toNat + 12)).toNat + (s.here.fb.read (b.toNat + 13)).toNat
        ∧ r.pay.off.toNat = b.toNat + 14 ∧ r.pay.len.toNat = n.toNat - 14)

/-- 42_ipv4.md R190: the three conditions that raise TruncatedHeader, and the record otherwise, with what selects it. -/
def Obligations.Ipv4DecodeReadsTheHeader : Prop :=
  (∀ (c : Cascade) (p : Slice),
    decode (.selected { c with sel := .ethertype16 [0x08, 0x00] p }) = .ok (.ipv4Decode p.off p.len))
  ∧ ∀ (b n : Half) (s : State), b.toNat + n.toNat ≤ s.here.frameBytes →
    let b0 := (s.here.fb.read b.toNat).toNat
    let hlen := b0 % 16 * 4
    (n.toNat < 20 ∨ n.toNat < hlen ∨ hlen < 20 →
      exec (.ipv4Decode b n) s
        = .next (s.setHere ((s.here.setRet (.truncated .ipv4)).setCascade { s.here.cascade with sel := .raised .ipv4 })))
    ∧ (20 ≤ n.toNat → hlen ≤ n.toNat → 20 ≤ hlen → ∃ r : Ipv4Record,
        exec (.ipv4Decode b n) s
          = .next (s.setHere ((s.here.setRet (.ipv4 r)).setCascade
              { s.here.cascade with ip := some r, sel := .ipProtoMux }))
        ∧ r.ver.toNat = b0 / 16 ∧ r.hlen.toNat = hlen
        ∧ r.ttl = s.here.fb.read (b.toNat + 8) ∧ r.proto = s.here.fb.read (b.toNat + 9)
        ∧ (∀ j (h : j < 4), r.src[j] = s.here.fb.read (b.toNat + 12 + j))
        ∧ (∀ j (h : j < 4), r.dst[j] = s.here.fb.read (b.toNat + 16 + j))
        ∧ r.pay.off.toNat = b.toNat + hlen ∧ r.pay.len.toNat = n.toNat - hlen)

/-- 43_tcp.md R210: the three conditions that raise TruncatedHeader, and the record otherwise, with what selects it. -/
def Obligations.TcpDecodeReadsTheHeader : Prop :=
  (∀ (c : Cascade) (p : Slice), decode (.selected { c with sel := .ipproto8 [0x06] p }) = .ok (.tcpDecode p.off p.len))
  ∧ ∀ (b n : Half) (s : State), b.toNat + n.toNat ≤ s.here.frameBytes →
    let at' := fun o => (s.here.fb.read (b.toNat + o)).toNat
    let doff := at' 12 / 16 * 4
    (n.toNat < 14 ∨ doff < 20 ∨ n.toNat < doff →
      exec (.tcpDecode b n) s
        = .next (s.setHere ((s.here.setRet (.truncated .tcp)).setCascade { s.here.cascade with sel := .raised .tcp })))
    ∧ (14 ≤ n.toNat → 20 ≤ doff → doff ≤ n.toNat → ∃ r : TcpRecord,
        exec (.tcpDecode b n) s
          = .next (s.setHere ((s.here.setRet (.tcp r)).setCascade
              { s.here.cascade with tcp := some r, sel := .returned }))
        ∧ r.sport.toNat = 256 * at' 0 + at' 1 ∧ r.dport.toNat = 256 * at' 2 + at' 3
        ∧ r.seq.toNat = 16777216 * at' 4 + 65536 * at' 5 + 256 * at' 6 + at' 7
        ∧ r.ack.toNat = 16777216 * at' 8 + 65536 * at' 9 + 256 * at' 10 + at' 11
        ∧ r.doff.toNat = doff
        ∧ (r.flags.urg = decide (at' 13 / 32 % 2 = 1)) ∧ (r.flags.ack = decide (at' 13 / 16 % 2 = 1))
        ∧ (r.flags.psh = decide (at' 13 / 8 % 2 = 1)) ∧ (r.flags.rst = decide (at' 13 / 4 % 2 = 1))
        ∧ (r.flags.syn = decide (at' 13 / 2 % 2 = 1)) ∧ (r.flags.fin = decide (at' 13 % 2 = 1))
        ∧ r.pay.off.toNat = b.toNat + doff ∧ r.pay.len.toNat = n.toNat - doff)

/-- 40_boundary_and_extractors.md R141: a decoder stops only on a slice that is not one of the frame, and DISPATCH only on a
length that is not the frame's. -/
def Obligations.DecodersStopOnlyOutsideTheFrame : Prop :=
  ∀ (b n : Half) (s : State) (f : Fault),
    (exec (.ethDecode b n) s = .fault f → s.here.frameBytes < b.toNat + n.toNat)
    ∧ (exec (.ipv4Decode b n) s = .fault f → s.here.frameBytes < b.toNat + n.toNat)
    ∧ (exec (.tcpDecode b n) s = .fault f → s.here.frameBytes < b.toNat + n.toNat)
    ∧ (exec (.dispatch n) s = .fault f → s.here.frameBytes < n.toNat)

/-- 10_state.md R43: TCP_FLAGS holds the flags at the bit positions they have in the offset/flags word, for every word. -/
def Obligations.TcpFlagsKeepTheirBitPositions : Prop :=
  ∀ w : Half, packFlags (flagsOf w) = (w &&& Config.TCP_FLAGS_MASK).truncate 6
    ∧ (flagsOf w).urg = w.getLsbD 5 ∧ (flagsOf w).ack = w.getLsbD 4 ∧ (flagsOf w).psh = w.getLsbD 3
    ∧ (flagsOf w).rst = w.getLsbD 2 ∧ (flagsOf w).syn = w.getLsbD 1 ∧ (flagsOf w).fin = w.getLsbD 0

/-! ## The multiplexers and the terminal states -/

/-- 44_dispatch.md R231: SEL_L3 completes, and what is selected next is IPV4_DECODE on the payload when the ethertype is
0x0800 and ETH_UNHANDLED for every other. -/
def Obligations.SelL3SelectsByEthertype : Prop :=
  ∀ (etype : Half) (pay : Slice) (s : State),
    ∃ t, exec (.selL3 etype pay) s = .next t
      ∧ t = s.setHere ((s.here.setRet t.here.ret).setCascade { s.here.cascade with sel := t.here.cascade.sel })
      ∧ t.here.ret = .selL3 (if etype = 0x0800 then .ipv4Decode else .ethUnhandled)
      ∧ ∀ e, s.here.cascade.eth = some e →
          decode (.selected t.here.cascade)
            = if etype = 0x0800 then .ok (.ipv4Decode pay.off pay.len) else .ok (.ethUnhandled e)

/-- 44_dispatch.md R233: SEL_L4 completes, and what is selected next is TCP_DECODE on the payload when the protocol is 6
and IPV4_UNHANDLED for every other. -/
def Obligations.SelL4SelectsByProtocol : Prop :=
  ∀ (proto : Byte) (pay : Slice) (s : State),
    ∃ t, exec (.selL4 proto pay) s = .next t
      ∧ t = s.setHere ((s.here.setRet t.here.ret).setCascade { s.here.cascade with sel := t.here.cascade.sel })
      ∧ t.here.ret = .selL4 (if proto = 6 then .tcpDecode else .ipv4Unhandled)
      ∧ ∀ e i, s.here.cascade.eth = some e → s.here.cascade.ip = some i →
          decode (.selected t.here.cascade)
            = if proto = 6 then .ok (.tcpDecode pay.off pay.len) else .ok (.ipv4Unhandled e i)

/-- 44_dispatch.md R232: ETH_UNHANDLED reports the Ethernet record alone, its payload, and no error; every ethertype but
0x0800 selects it. -/
def Obligations.EthUnhandledEndsNormally : Prop :=
  ∀ (e : EthRecord) (s : State), ∃ r : Result,
    exec (.ethUnhandled e) s
      = .next (s.setHere ((s.here.setRet (.result r)).setCascade { s.here.cascade with sel := .finished r }))
    ∧ r = { term := .ethUnhandled, eth := some e, ip := none, tcp := none, fin := e.pay }
    ∧ (resultRegs r).status = 0x0013
    ∧ ∀ (c : Cascade) (p : Slice), c.eth = some e → e.etype ≠ 0x0800 →
        decode (.selected { c with sel := .ethertype16 (wire16 e.etype) p }) = .ok (.ethUnhandled e)

/-- 44_dispatch.md R234: IPV4_UNHANDLED reports the Ethernet and IPv4 records, the IPv4 payload, and no error; every
protocol but 6 selects it. -/
def Obligations.Ipv4UnhandledEndsNormally : Prop :=
  ∀ (e : EthRecord) (i : Ipv4Record) (s : State), ∃ r : Result,
    exec (.ipv4Unhandled e i) s
      = .next (s.setHere ((s.here.setRet (.result r)).setCascade { s.here.cascade with sel := .finished r }))
    ∧ r = { term := .ipv4Unhandled, eth := some e, ip := some i, tcp := none, fin := i.pay }
    ∧ (resultRegs r).status = 0x0037
    ∧ ∀ (c : Cascade) (p : Slice), c.eth = some e → c.ip = some i → i.proto ≠ 6 →
        decode (.selected { c with sel := .ipproto8 [i.proto] p }) = .ok (.ipv4Unhandled e i)

/-- 44_dispatch.md R235. -/
def Obligations.EthTruncReportsNoRecord : Prop :=
  ∀ (len : Half) (s : State), ∃ r : Result,
    exec (.ethTrunc len) s
      = .next (s.setHere ((s.here.setRet (.result r)).setCascade { s.here.cascade with sel := .finished r }))
    ∧ r = { term := .ethTrunc, eth := none, ip := none, tcp := none, fin := ⟨0, len⟩ }
    ∧ (resultRegs r).status = 0x0101
    ∧ ∀ c : Cascade, c.len = len → decode (.selected { c with sel := .raised .eth }) = .ok (.ethTrunc len)

/-- 44_dispatch.md R236. -/
def Obligations.Ipv4TruncKeepsTheEthernetRecord : Prop :=
  ∀ (e : EthRecord) (s : State), ∃ r : Result,
    exec (.ipv4Trunc e) s
      = .next (s.setHere ((s.here.setRet (.result r)).setCascade { s.here.cascade with sel := .finished r }))
    ∧ r = { term := .ipv4Trunc, eth := some e, ip := none, tcp := none, fin := e.pay }
    ∧ (resultRegs r).status = 0x0123
    ∧ ∀ c : Cascade, c.eth = some e → decode (.selected { c with sel := .raised .ipv4 }) = .ok (.ipv4Trunc e)

/-- 44_dispatch.md R237. -/
def Obligations.TcpTruncKeepsTheOuterRecords : Prop :=
  ∀ (e : EthRecord) (i : Ipv4Record) (s : State), ∃ r : Result,
    exec (.tcpTrunc e i) s
      = .next (s.setHere ((s.here.setRet (.result r)).setCascade { s.here.cascade with sel := .finished r }))
    ∧ r = { term := .tcpTrunc, eth := some e, ip := some i, tcp := none, fin := i.pay }
    ∧ (resultRegs r).status = 0x0147
    ∧ ∀ c : Cascade, c.eth = some e → c.ip = some i →
        decode (.selected { c with sel := .raised .tcp }) = .ok (.tcpTrunc e i)

/-- 44_dispatch.md R238. -/
def Obligations.TcpDoneReportsAllRecords : Prop :=
  ∀ (e : EthRecord) (i : Ipv4Record) (t : TcpRecord) (s : State), ∃ r : Result,
    exec (.tcpDone e i t) s
      = .next (s.setHere ((s.here.setRet (.result r)).setCascade { s.here.cascade with sel := .finished r }))
    ∧ r = { term := .tcpDone, eth := some e, ip := some i, tcp := some t, fin := t.pay }
    ∧ (resultRegs r).status = 0x005F
    ∧ ∀ c : Cascade, c.eth = some e → c.ip = some i → c.tcp = some t →
        decode (.selected { c with sel := .returned }) = .ok (.tcpDone e i t)

/-! ## The result update and the whole cascade -/

/-- 44_dispatch.md R244: every result register and BUSY, and nothing else of the machine but the request that ended. -/
def Obligations.ResultWriteWritesEveryRegister : Prop :=
  ∀ (r : Result) (s : State), ∃ t, exec (.resultWrite r) s = .next t
    ∧ t.here.busy = false
    ∧ statusDone t.here.regs.status = true ∧ statusEthV t.here.regs.status = r.eth.isSome
    ∧ statusIpV t.here.regs.status = r.ip.isSome ∧ statusTcpV t.here.regs.status = r.tcp.isSome
    ∧ (statusTerm t.here.regs.status).toNat
        = (match r.term with
           | .ethTrunc => 0 | .ethUnhandled => 1 | .ipv4Trunc => 2 | .ipv4Unhandled => 3 | .tcpTrunc => 4 | .tcpDone => 5)
    ∧ statusCause t.here.regs.status
        = (if r.term = .ethTrunc ∨ r.term = .ipv4Trunc ∨ r.term = .tcpTrunc then 1 else 0)
    ∧ statusReserved7 t.here.regs.status = 0 ∧ statusReserved15 t.here.regs.status = 0
    ∧ t.here.regs.eth = r.eth.map (fun e => ⟨e.dst, e.src, e.etype, e.pay.off, e.pay.len⟩)
    ∧ t.here.regs.ip = r.ip.map (fun i => ⟨i.ver, i.hlen, i.ttl, i.proto, i.src, i.dst, i.pay.off, i.pay.len⟩)
    ∧ t.here.regs.tcp = r.tcp.map (fun c =>
        ⟨c.sport, c.dport, c.seq, c.ack, c.doff,
          BitVec.ofBool c.flags.urg ++ BitVec.ofBool c.flags.ack ++ BitVec.ofBool c.flags.psh
            ++ BitVec.ofBool c.flags.rst ++ BitVec.ofBool c.flags.syn ++ BitVec.ofBool c.flags.fin,
          c.pay.off, c.pay.len⟩)
    ∧ t.here.regs.fin = some r.fin
    ∧ t.here.fb = s.here.fb ∧ t.here.frameLen = s.here.frameLen
    ∧ t.before = s.before ∧ t.after = s.after ∧ t.events = s.events ∧ t.hostData = s.hostData

/-- 44_dispatch.md R230, R241 and the table of 60_exceptions.md R260, on every frame: DISPATCH completes, and STATUS and
the final payload are these functions of the frame's length and bytes. -/
def Obligations.DispatchEndsInTheTerminalStateOfTheFrame : Prop :=
  ∀ (L : Half) (s : State), s.here.frameLen = some L →
    let fb := fun a => (s.here.fb.read a).toNat
    let n := L.toNat
    let hlen := fb 14 % 16 * 4
    let doff := fb (14 + hlen + 12) / 16 * 4
    ∃ t, exec (.dispatch L) s = .next t
      ∧ t.here.busy = false
      ∧ (t.here.regs.status, t.here.regs.fin) =
          (if n < 14 then (0x0101, some (sliceOf 0 n))
           else if ¬ (fb 12 = 0x08 ∧ fb 13 = 0x00) then (0x0013, some (sliceOf 14 (n - 14)))
           else if n - 14 < 20 ∨ n - 14 < hlen ∨ hlen < 20 then (0x0123, some (sliceOf 14 (n - 14)))
           else if fb 23 ≠ 6 then (0x0037, some (sliceOf (14 + hlen) (n - 14 - hlen)))
           else if n - 14 - hlen < 14 ∨ doff < 20 ∨ n - 14 - hlen < doff then
             (0x0147, some (sliceOf (14 + hlen) (n - 14 - hlen)))
           else (0x005F, some (sliceOf (14 + hlen + doff) (n - 14 - hlen - doff))))
      ∧ t.here.fb = s.here.fb ∧ t.here.frameLen = s.here.frameLen
      ∧ t.before = s.before ∧ t.after = s.after ∧ t.events = s.events ∧ t.hostData = s.hostData

/-- 10_state.md R37: CAUSE after a completed transaction, whatever the frame. -/
def Obligations.CauseFollowsTerm : Prop :=
  ∀ (L : Half) (s : State), s.here.frameLen = some L →
    ∃ t, exec (.dispatch L) s = .next t
      ∧ (let st := t.here.regs.status
         let term := (statusTerm st).toNat
         term ≤ 5 ∧ (statusCause st = 1 ↔ term = 0 ∨ term = 2 ∨ term = 4)
         ∧ (statusCause st = 0 ↔ term = 1 ∨ term = 3 ∨ term = 5))

/-- 10_state.md R38: the valid bits after a completed transaction, whatever the frame, and the records they announce. -/
def Obligations.ValidBitsFollowTerm : Prop :=
  ∀ (L : Half) (s : State), s.here.frameLen = some L →
    ∃ t, exec (.dispatch L) s = .next t
      ∧ (let st := t.here.regs.status
         let term := (statusTerm st).toNat
         (statusEthV st = true ↔ 1 ≤ term) ∧ (statusIpV st = true ↔ 3 ≤ term) ∧ (statusTcpV st = true ↔ term = 5)
         ∧ t.here.regs.eth.isSome = statusEthV st ∧ t.here.regs.ip.isSome = statusIpV st
         ∧ t.here.regs.tcp.isSome = statusTcpV st)

/-- 10_state.md R40: the Ethernet registers of every frame that has an Ethernet record. -/
def Obligations.EthernetRegistersHoldTheHeader : Prop :=
  ∀ (L : Half) (s : State), s.here.frameLen = some L →
    let fb := s.here.fb.read
    ∃ t, exec (.dispatch L) s = .next t ∧ t.here.regs.eth.isSome = statusEthV t.here.regs.status
      ∧ ∀ e, t.here.regs.eth = some e →
        (∀ j (h : j < 6), e.dst[j] = fb j) ∧ (∀ j (h : j < 6), e.src[j] = fb (6 + j))
        ∧ e.etype.toNat = 256 * (fb 12).toNat + (fb 13).toNat
        ∧ e.payOff = 14 ∧ 14 + e.payLen.toNat = L.toNat
        ∧ ∀ a : Vector Byte 6, (macNumber a).toNat
            = 256 * (256 * (256 * (256 * (256 * a[0].toNat + a[1].toNat) + a[2].toNat) + a[3].toNat) + a[4].toNat)
                + a[5].toNat

/-- 10_state.md R41: the IPv4 registers of every frame that has an IPv4 record. -/
def Obligations.Ipv4RegistersHoldTheHeader : Prop :=
  ∀ (L : Half) (s : State), s.here.frameLen = some L →
    let fb := s.here.fb.read
    ∃ t, exec (.dispatch L) s = .next t ∧ t.here.regs.ip.isSome = statusIpV t.here.regs.status
      ∧ ∀ i, t.here.regs.ip = some i →
        i.ver.toNat = (fb 14).toNat / 16 ∧ i.hlen.toNat = (fb 14).toNat % 16 * 4
        ∧ i.ttl = fb 22 ∧ i.proto = fb 23
        ∧ (∀ j (h : j < 4), i.src[j] = fb (26 + j)) ∧ (∀ j (h : j < 4), i.dst[j] = fb (30 + j))
        ∧ i.payOff.toNat = 14 + i.hlen.toNat ∧ i.payOff.toNat + i.payLen.toNat = L.toNat
        ∧ ∀ a : Vector Byte 4, (ipv4Number a).toNat
            = 256 * (256 * (256 * a[0].toNat + a[1].toNat) + a[2].toNat) + a[3].toNat

/-- 10_state.md R42: the TCP registers of every frame that has a TCP record, at the offset the IPv4 registers name. -/
def Obligations.TcpRegistersHoldTheHeader : Prop :=
  ∀ (L : Half) (s : State), s.here.frameLen = some L →
    ∃ t, exec (.dispatch L) s = .next t ∧ t.here.regs.tcp.isSome = statusTcpV t.here.regs.status
      ∧ ∀ c, t.here.regs.tcp = some c → ∃ i, t.here.regs.ip = some i
        ∧ (let at' := fun o => (s.here.fb.read (i.payOff.toNat + o)).toNat
           c.sport.toNat = 256 * at' 0 + at' 1 ∧ c.dport.toNat = 256 * at' 2 + at' 3
           ∧ c.seq.toNat = 16777216 * at' 4 + 65536 * at' 5 + 256 * at' 6 + at' 7
           ∧ c.ack.toNat = 16777216 * at' 8 + 65536 * at' 9 + 256 * at' 10 + at' 11
           ∧ c.doff.toNat = at' 12 / 16 * 4 ∧ c.flags.toNat = at' 13 % 64
           ∧ c.payOff.toNat = i.payOff.toNat + c.doff.toNat ∧ c.payOff.toNat + c.payLen.toNat = L.toNat)

/-- 44_dispatch.md R246: the result depends on FRAME_LEN and the frame's bytes alone. The two machines may differ in all
else: earlier results, other instances, FB beyond the frame, the schedule. -/
def Obligations.ResultDependsOnTheFrameAlone : Prop :=
  ∀ (L : Half) (s s' : State), s.here.frameLen = some L → s'.here.frameLen = some L →
    (∀ a, a < L.toNat → s.here.fb.read a = s'.here.fb.read a) →
    ∃ t t', exec (.dispatch L) s = .next t ∧ exec (.dispatch L) s' = .next t'
      ∧ t.here.regs = t'.here.regs ∧ t.here.busy = t'.here.busy

/-- 30_encoding.md R121: bits 11..6 of the offset/flags word and the IPv4 bytes the block never reads, the options among
them, change no result. Nor do the bytes behind the offset/flags word. Two frames have to agree only on what is decoded: the
Ethernet header; byte 14 where an IPv4 header is decoded; the protocol, TTL and addresses where its length is legal; and the
TCP fields where a TCP header is. -/
def Obligations.UndecodedBitsChangeNoResult : Prop :=
  ∀ (L : Half) (s s' : State), s.here.frameLen = some L → s'.here.frameLen = some L →
    let fb := s.here.fb
    let fb' := s'.here.fb
    let hlen := (fb.read 14).toNat % 16 * 4
    let tcp := 14 + hlen
    let isIpv4 := 34 ≤ L.toNat ∧ (fb.read 12).toNat = 8 ∧ (fb.read 13).toNat = 0
    let hasIpv4 := isIpv4 ∧ 20 ≤ hlen ∧ tcp ≤ L.toNat
    let isTcp := hasIpv4 ∧ (fb.read 23).toNat = 6 ∧ tcp + 14 ≤ L.toNat
    (∀ a, a < L.toNat → a ≤ 13 → fb.read a = fb'.read a) →
    (isIpv4 → (fb.read 14) = (fb'.read 14)) →
    (hasIpv4 → ∀ a, a = 22 ∨ a = 23 ∨ (26 ≤ a ∧ a ≤ 33) → fb.read a = fb'.read a) →
    (isTcp → ∀ a, tcp ≤ a → a < tcp + 12 → fb.read a = fb'.read a) →
    (isTcp → (fb.read (tcp + 12)).toNat / 16 = (fb'.read (tcp + 12)).toNat / 16) →
    (isTcp → (fb.read (tcp + 13)).toNat % 64 = (fb'.read (tcp + 13)).toNat % 64) →
    ∃ t t', exec (.dispatch L) s = .next t ∧ exec (.dispatch L) s' = .next t' ∧ t.here.regs = t'.here.regs

/-! ## Reset and the host -/

/-- 10_state.md R53: what reset leaves, for every number of instances. -/
def Obligations.ResetLeavesTheResetValues : Prop :=
  ∀ (n : Nat) (m : Instance), m ∈ (State.resetWith n).instances →
    m.regs.status = 0x0000 ∧ m.busy = false ∧ m.frameLen = none
    ∧ (∀ r, r ≠ ResultReg.STATUS → regValue m.regs r = none)

/-- 70_reset_and_hazards.md R290, R291: reset at any time puts every instance in the reset state, with no result update,
and does not change FB. -/
def Obligations.ResetAbandonsTransactionsAndKeepsFb : Prop :=
  ∀ (s : State) (rest : List Event), s.events = .reset :: rest →
    ∃ t, step s = .next t ∧ t.instances.length = s.instances.length ∧ t.events = rest
      ∧ ∀ (i : Nat) (m m' : Instance), s.instances[i]? = some m → t.instances[i]? = some m' →
          m'.busy = false ∧ m'.regs.status = 0x0000 ∧ m'.frameLen = none
          ∧ (∀ r, r ≠ ResultReg.STATUS → regValue m'.regs r = none)
          ∧ ∀ a, m'.fb.read a = m.fb.read a

/-- 10_state.md R48, R49 and 30_encoding.md R124: SUBMIT sets BUSY and starts a cascade on FRAME_LEN, and changes nothing
else that the host can read. -/
def Obligations.SubmitStartsTheCascade : Prop :=
  ∀ (s u : State) (i : Nat) (rest : List Event) (L : Half), s.events = .host i .submit :: rest → s.focus i = some u →
    u.here.busy = false → u.here.frameLen = some L →
    ∃ t, step s = .next t ∧ t.here.busy = true ∧ decode (.selected t.here.cascade) = .ok (.ethDecode 0 L)
      ∧ t.here.regs = u.here.regs ∧ t.here.fb = u.here.fb ∧ t.here.frameLen = some L
      ∧ t.before = u.before ∧ t.after = u.after ∧ t.events = rest ∧ t.hostData = s.hostData

/-- The host's duties of 70_reset_and_hazards.md section 3: a transaction whose host broke one is refused. The model's
choices in it: that the write of a frame above 65535 bytes is itself refused is log entry 13, and that a busy instance gives
hostWroteDuringTransaction also to a write or a length that is too long is log entry 24. -/
def Obligations.BrokenHostDutiesAreRefused : Prop :=
  ∀ (s u : State) (i : Nat) (rest : List Event), s.focus i = some u →
    (∀ l, s.events = .host i (.setLen l) :: rest → u.here.busy = false → 65535 < l → step s = .refused .frameTooLong)
    ∧ (∀ o bytes, s.events = .host i (.writeFb o bytes) :: rest → u.here.busy = false → 65535 < bytes.length →
        step s = .refused .frameTooLong)
    ∧ (s.events = .host i .submit :: rest → u.here.busy = false → u.here.frameLen = none →
        step s = .refused .frameLenNeverWritten)
    ∧ (∀ o bytes, s.events = .host i (.writeFb o bytes) :: rest → u.here.busy = true →
        step s = .refused .hostWroteDuringTransaction)
    ∧ (∀ l, s.events = .host i (.setLen l) :: rest → u.here.busy = true →
        step s = .refused .hostWroteDuringTransaction)
    ∧ (s.events = .host i .submit :: rest → u.here.busy = true → step s = .refused .submitWhileBusy)

/-- 10_state.md R45: a read of a register of a layer whose valid bit is 0 is a fault of the reader, never a number. -/
def Obligations.ReadOfAnAbsentRecordFaults : Prop :=
  ∀ (s u : State) (i : Nat) (rest : List Event) (r : ResultReg), s.Inv → s.events = .host i (.read r) :: rest →
    s.focus i = some u →
    (statusEthV u.here.regs.status = false → 1 ≤ regNumber r → regNumber r ≤ 5 → step s = .fault .readOfNoValue)
    ∧ (statusIpV u.here.regs.status = false → 6 ≤ regNumber r → regNumber r ≤ 13 → step s = .fault .readOfNoValue)
    ∧ (statusTcpV u.here.regs.status = false → 14 ≤ regNumber r → regNumber r ≤ 21 → step s = .fault .readOfNoValue)

/-- 10_state.md R34: a read returns the register's value, while BUSY too, and changes nothing but what the host has read;
where the register holds no value, and where STATUS holds one that is never produced (I8), it is a fault; a host write to
a result register has no effect; FRAME_LEN is written only while BUSY = 0. That a host write to BUSY has no effect is the
model's reading of R49 (log entry 15). -/
def Obligations.HostReadsAndNeverWritesResultRegisters : Prop :=
  ∀ (s u : State) (i : Nat) (rest : List Event), s.focus i = some u →
    (∀ (r : ResultReg) (v : Value), s.events = .host i (.read r) :: rest → regValue u.here.regs r = some v →
      (r = .STATUS → statusLegal u.here.regs.status = true) → step s = .next ((u.setEvents rest).setHostData v))
    ∧ (∀ r : ResultReg, s.events = .host i (.read r) :: rest → regValue u.here.regs r = none →
      step s = .fault .readOfNoValue)
    ∧ (s.events = .host i (.read .STATUS) :: rest → statusLegal u.here.regs.status = false →
      step s = .fault .illegalStatus)
    ∧ (∀ (r : ResultReg) (v : Nat), s.events = .host i (.writeReg r v) :: rest → step s = .next (u.setEvents rest))
    ∧ (∀ l t, s.events = .host i (.setLen l) :: rest → step s = .next t → u.here.busy = false)
    ∧ (∀ v, s.events = .host i (.writeBusy v) :: rest → step s = .next (u.setEvents rest))

/-- 10_state.md R49 and 20_memory.md R90: what the host reads of BUSY, FRAME_LEN and FB, as they then are; that FRAME_LEN
without a value faults is I7 of 93_implementation_defined.md. That the host may read FRAME_LEN, and FB and BUSY at any time,
is log entry 21; that a read beyond FB faults is log entry 13. -/
def Obligations.HostReadsRequestRegistersAndFb : Prop :=
  ∀ (s u : State) (i : Nat) (rest : List Event), s.focus i = some u →
    (s.events = .host i .readBusy :: rest → ∃ v : BitVec 1,
      step s = .next ((u.setEvents rest).setHostData (.u1 v)) ∧ (v = 1 ↔ u.here.busy = true))
    ∧ (∀ L, s.events = .host i .readLen :: rest → u.here.frameLen = some L →
      step s = .next ((u.setEvents rest).setHostData (.u16 L)))
    ∧ (s.events = .host i .readLen :: rest → u.here.frameLen = none → step s = .fault .readOfNoValue)
    ∧ (∀ o n, s.events = .host i (.readFb o n) :: rest → o + n ≤ 65535 → ∃ l : List Byte,
      step s = .next ((u.setEvents rest).setHostData (.bytes l)) ∧ l.length = n
        ∧ ∀ j, j < n → l[j]? = some (u.here.fb.read (o + j)))
    ∧ (∀ o n, s.events = .host i (.readFb o n) :: rest → n ≠ 0 → 65535 < o + n → step s = .fault .noSuchFbOffset)

/-- 30_encoding.md R124: `FB[o..] := bytes` on an idle instance stores those bytes at rising offsets and no other byte, and
stops where FB has no such byte (20_memory.md R70); `LEN := L` stores L; neither changes anything else. `DECODE bytes`, busy or
idle, stands for four actions, which are then the next of the schedule (log entry 26). -/
def Obligations.HostWritesStoreWhatTheySay : Prop :=
  ∀ (s u : State) (i : Nat) (rest : List Event), s.focus i = some u →
    (∀ o bytes, s.events = .host i (.writeFb o bytes) :: rest → u.here.busy = false → u.here.fb.wf = true →
      bytes = [] ∨ o + bytes.length ≤ 65535 →
      ∃ fb : Memory, step s = .next ((u.setEvents rest).setHere (u.here.setFb fb)) ∧ fb.wf = true
        ∧ (∀ k, k < bytes.length → bytes[k]? = some (fb.read (o + k)))
        ∧ ∀ a, a < o ∨ o + bytes.length ≤ a → fb.read a = u.here.fb.read a)
    ∧ (∀ o bytes, s.events = .host i (.writeFb o bytes) :: rest → u.here.busy = false → bytes ≠ [] →
      bytes.length ≤ 65535 → 65535 < o + bytes.length → step s = .fault .noSuchFbOffset)
    ∧ (∀ l, s.events = .host i (.setLen l) :: rest → u.here.busy = false → l ≤ 65535 →
      step s = .next ((u.setEvents rest).setHere (u.here.setFrameLen (some (BitVec.ofNat 16 l)))))
    ∧ (∀ bytes, s.events = .host i (.decode bytes) :: rest →
      step s = .next (u.setEvents (.host i (.writeFb 0 bytes) :: .host i (.setLen bytes.length) :: .host i .submit
        :: .host i .wait :: rest)))

/-- 30_encoding.md R124 and 70_reset_and_hazards.md R305: WAIT on an idle instance is over; on a busy one the step is
DISPATCH on the accepted length, which completes the request, and the host still waits (log entry 9). -/
def Obligations.WaitLetsTheRequestComplete : Prop :=
  ∀ (s u : State) (i : Nat) (rest : List Event), s.Inv → s.events = .host i .wait :: rest → s.focus i = some u →
    (u.here.busy = false → step s = .next (u.setEvents rest))
    ∧ (u.here.busy = true → step s = exec (.dispatch u.here.cascade.len) (u.setEvents (.host i .wait :: rest))
        ∧ ∃ t, step s = .next t ∧ t.here.busy = false ∧ statusDone t.here.regs.status = true
        ∧ t.events = .host i .wait :: rest)

/-! ## The machine -/

/-- A turn of an instance runs the operation its cascade selects, or the whole transaction (44_dispatch.md R230 with decision
D1), or the primitive called. The model's choices: the schedule of turns (log entry 3), single operations as turns of their
own (log entry 7), and a turn that evaluates a primitive by name (log entry 19). -/
def Obligations.StepRunsTheDecodedOperation : Prop :=
  ∀ (s u : State) (i : Nat) (rest : List Event) (op : Instr), s.focus i = some u →
    (s.events = .advance i :: rest → u.here.busy = true → decode (.selected u.here.cascade) = .ok op →
      step s = exec op (u.setEvents rest))
    ∧ (s.events = .complete i :: rest → u.here.busy = true →
      step s = exec (.dispatch u.here.cascade.len) (u.setEvents rest))
    ∧ (∀ p args, s.events = .evaluate i p args :: rest → decode (.call p args) = .ok op →
      step s = exec op (u.setEvents rest))

/-- 60_exceptions.md R286: an idle instance waits with its result register set unchanged. -/
def Obligations.IdleInstanceWaits : Prop :=
  ∀ (s u : State) (i : Nat) (rest : List Event), s.focus i = some u → u.here.busy = false →
    (s.events = .advance i :: rest → step s = .next (u.setEvents rest))
    ∧ (s.events = .complete i :: rest → step s = .next (u.setEvents rest))

/-- The frame of every operation: no byte of FB, no request register but BUSY, no other instance, nothing of the schedule
and nothing the host has read; the result registers and BUSY by DISPATCH and RESULT_WRITE alone (20_memory.md R77). -/
def Obligations.OperationsChangeOnlyTheirOwn : Prop :=
  ∀ (i : Instr) (s t : State), exec i s = .next t →
    (∀ a, t.here.fb.read a = s.here.fb.read a) ∧ t.here.frameLen = s.here.frameLen
    ∧ t.before = s.before ∧ t.after = s.after ∧ t.events = s.events ∧ t.hostData = s.hostData
    ∧ ((∀ len, i ≠ .dispatch len) → (∀ r, i ≠ .resultWrite r) →
        t.here.regs = s.here.regs ∧ t.here.busy = s.here.busy ∧ t.here.cascade.len = s.here.cascade.len)

/-- 20_memory.md R84: while a transaction is in flight, FB and FRAME_LEN of its instance stay as they were when the
request was accepted, unless the block is reset. -/
def Obligations.FrameIsStableDuringATransaction : Prop :=
  ∀ (s t : State) (e : Event) (rest : List Event) (k : Nat) (m m' : Instance), s.events = e :: rest → e ≠ .reset →
    step s = .next t → s.instances[k]? = some m → t.instances[k]? = some m' → m.busy = true →
    m'.fb = m.fb ∧ m'.frameLen = m.frameLen

/-- 44_dispatch.md R245: in no step but a reset does a result register change unless BUSY falls with it, and then all of
them hold one well-formed result. -/
def Obligations.ResultUpdateIsIndivisible : Prop :=
  ∀ (s t : State) (e : Event) (rest : List Event) (k : Nat) (m m' : Instance), s.Inv → s.events = e :: rest →
    e ≠ .reset → step s = .next t → s.instances[k]? = some m → t.instances[k]? = some m' →
    (m'.regs ≠ m.regs → m.busy = true ∧ m'.busy = false)
    ∧ (m.busy = true → m'.busy = false → ∃ r : Result, r.WellFormed = true ∧ m'.regs = resultRegs r)

/-- 10_state.md R39: DONE is 0 at reset, is 1 whenever a transaction has completed, rises with no other step, and is never
cleared again except by reset. -/
def Obligations.DoneIsClearedByResetAlone : Prop :=
  (∀ (n : Nat) (m : Instance), m ∈ (State.resetWith n).instances → statusDone m.regs.status = false)
  ∧ ∀ (s t : State) (e : Event) (rest : List Event) (k : Nat) (m m' : Instance), s.events = e :: rest →
    e ≠ .reset → step s = .next t → s.instances[k]? = some m → t.instances[k]? = some m' →
    (statusDone m.regs.status = true → statusDone m'.regs.status = true)
    ∧ (m.busy = true → m'.busy = false → statusDone m'.regs.status = true)
    ∧ (statusDone m.regs.status = false → statusDone m'.regs.status = true → m.busy = true ∧ m'.busy = false)

/-- 60_exceptions.md R280, R281: a turn of one instance changes no other instance, and no step changes their number. -/
def Obligations.InstancesShareNoState : Prop :=
  ∀ (s t : State) (e : Event) (rest : List Event), s.events = e :: rest → step s = .next t →
    t.instances.length = s.instances.length
    ∧ ∀ i k : Nat, i ≠ k →
        ((∃ a, e = .host i a) ∨ e = .complete i ∨ e = .advance i ∨ (∃ p args, e = .evaluate i p args)) →
        t.instances[k]? = s.instances[k]?

/-- The invariant of Safety.lean holds after reset, for every number of instances. -/
def Obligations.InvariantHoldsAtReset : Prop := ∀ n : Nat, (State.resetWith n).Inv

/-- The invariant of Safety.lean is kept by every step from every state that has it. -/
def Obligations.EveryStepKeepsTheInvariant : Prop :=
  ∀ s t : State, s.Inv → step s = .next t → t.Inv

/-- 40_boundary_and_extractors.md R141, R152 and 60_exceptions.md R264: no turn of a run reads outside the frame
or selects no operation; what stops a run is the host's own doing. -/
def Obligations.NoRunReadsOutsideTheFrame : Prop :=
  ∀ (s : State) (e : Event) (rest : List Event), s.Inv → s.events = e :: rest → e.ofRun = true →
    (∀ f, step s = .fault f → f.ofHost = true) ∧ ∀ d, step s ≠ .refused (.undecodable d)

/-- 10_state.md R46: the legal values of the result registers, in every state with the invariant. -/
def Obligations.ResultRegistersHoldLegalValues : Prop :=
  ∀ (s : State) (m : Instance), s.Inv → m ∈ s.instances → ∀ fin, m.regs.fin = some fin →
    let L := fin.off.toNat + fin.len.toNat
    (∀ e, m.regs.eth = some e → e.payOff = 14 ∧ e.payOff.toNat + e.payLen.toNat = L)
    ∧ (∀ i, m.regs.ip = some i → 20 ≤ i.hlen.toNat ∧ i.hlen.toNat ≤ 60 ∧ i.hlen.toNat % 4 = 0
        ∧ 34 ≤ i.payOff.toNat ∧ i.payOff.toNat ≤ 74 ∧ i.payOff.toNat + i.payLen.toNat = L)
    ∧ (∀ c, m.regs.tcp = some c → 20 ≤ c.doff.toNat ∧ c.doff.toNat ≤ 60 ∧ c.doff.toNat % 4 = 0
        ∧ 54 ≤ c.payOff.toNat ∧ c.payOff.toNat ≤ 134 ∧ c.payOff.toNat + c.payLen.toNat = L)
    ∧ (fin.off.toNat = 0 ∨ fin.off.toNat = 14 ∨ (34 ≤ fin.off.toNat ∧ fin.off.toNat ≤ 74)
        ∨ (54 ≤ fin.off.toNat ∧ fin.off.toNat ≤ 134))

/-- 44_dispatch.md R247: from any place of a transaction, seven single operations of its instance are enough to complete
it. -/
def Obligations.EveryTransactionCompletes : Prop :=
  ∀ (s : State) (rest : List Event), s.Inv → s.here.busy = true →
    s.events = List.replicate 7 (.advance s.before.length) ++ rest →
    ∃ t, Host.Core.run Sys2Proof.core 7 s = .next t ∧ t.here.busy = false ∧ statusDone t.here.regs.status = true
      ∧ t.events = rest

/-- 44_dispatch.md R230 with decision D1: DISPATCH in one step leaves exactly the state that the single operations leave,
run one at a time from the acceptance of the request. -/
def Obligations.OneStepEqualsTheSingleOperations : Prop :=
  ∀ (s : State) (rest : List Event) (L : Half), s.here.busy = true → s.here.frameLen = some L →
    s.here.cascade = Cascade.start L →
    ∃ t, step (s.setEvents (.complete s.before.length :: rest)) = .next t
      ∧ Host.Core.run Sys2Proof.core 7 (s.setEvents (List.replicate 7 (.advance s.before.length) ++ rest)) = .next t

/-- 10_state.md R49: BUSY is 0 at reset; in no step but a reset does it rise except by the SUBMIT that the instance accepts, or
fall except with the result of the completed request; while it is 1 no further request is accepted; a host write does
not change it, and the host reads it. -/
def Obligations.BusyIsOneFromAcceptanceToCompletion : Prop :=
  (∀ (n : Nat) (m : Instance), m ∈ (State.resetWith n).instances → m.busy = false)
  ∧ ∀ (s t : State) (e : Event) (rest : List Event) (k : Nat) (m m' : Instance), s.events = e :: rest → e ≠ .reset →
    step s = .next t → s.instances[k]? = some m → t.instances[k]? = some m' →
    (e = .host k .submit → m.busy = false ∧ m'.busy = true)
    ∧ (m.busy = false → m'.busy = true → e = .host k .submit)
    ∧ (m.busy = true → m'.busy = false → ∃ r, m'.regs = resultRegs r)
    ∧ (∀ v, e = .host k (.writeBusy v) → m'.busy = m.busy)
    ∧ (e = .host k .readBusy → t.hostData = .u1 (BitVec.ofBool m.busy))
end

