-- ==== Sys2Proof/Laws/State.lean ====
section
/-! SUPPORT. One lemma per field per update of Instance and State, each true by rfl. -/
namespace Sys2Proof.Machine

@[simp] theorem Instance.setFb_fb (m : Instance) (x : Memory) : (m.setFb x).fb = x := rfl
@[simp] theorem Instance.setFb_frameLen (m : Instance) (x : Memory) : (m.setFb x).frameLen = m.frameLen := rfl
@[simp] theorem Instance.setFb_busy (m : Instance) (x : Memory) : (m.setFb x).busy = m.busy := rfl
@[simp] theorem Instance.setFb_regs (m : Instance) (x : Memory) : (m.setFb x).regs = m.regs := rfl
@[simp] theorem Instance.setFb_cascade (m : Instance) (x : Memory) : (m.setFb x).cascade = m.cascade := rfl
@[simp] theorem Instance.setFb_ret (m : Instance) (x : Memory) : (m.setFb x).ret = m.ret := rfl
@[simp] theorem Instance.setFrameLen_fb (m : Instance) (x : Option Half) : (m.setFrameLen x).fb = m.fb := rfl
@[simp] theorem Instance.setFrameLen_frameLen (m : Instance) (x : Option Half) : (m.setFrameLen x).frameLen = x := rfl
@[simp] theorem Instance.setFrameLen_busy (m : Instance) (x : Option Half) : (m.setFrameLen x).busy = m.busy := rfl
@[simp] theorem Instance.setFrameLen_regs (m : Instance) (x : Option Half) : (m.setFrameLen x).regs = m.regs := rfl
@[simp] theorem Instance.setFrameLen_cascade (m : Instance) (x : Option Half) : (m.setFrameLen x).cascade = m.cascade := rfl
@[simp] theorem Instance.setFrameLen_ret (m : Instance) (x : Option Half) : (m.setFrameLen x).ret = m.ret := rfl
@[simp] theorem Instance.setBusy_fb (m : Instance) (x : Bool) : (m.setBusy x).fb = m.fb := rfl
@[simp] theorem Instance.setBusy_frameLen (m : Instance) (x : Bool) : (m.setBusy x).frameLen = m.frameLen := rfl
@[simp] theorem Instance.setBusy_busy (m : Instance) (x : Bool) : (m.setBusy x).busy = x := rfl
@[simp] theorem Instance.setBusy_regs (m : Instance) (x : Bool) : (m.setBusy x).regs = m.regs := rfl
@[simp] theorem Instance.setBusy_cascade (m : Instance) (x : Bool) : (m.setBusy x).cascade = m.cascade := rfl
@[simp] theorem Instance.setBusy_ret (m : Instance) (x : Bool) : (m.setBusy x).ret = m.ret := rfl
@[simp] theorem Instance.setRegs_fb (m : Instance) (x : ResultRegs) : (m.setRegs x).fb = m.fb := rfl
@[simp] theorem Instance.setRegs_frameLen (m : Instance) (x : ResultRegs) : (m.setRegs x).frameLen = m.frameLen := rfl
@[simp] theorem Instance.setRegs_busy (m : Instance) (x : ResultRegs) : (m.setRegs x).busy = m.busy := rfl
@[simp] theorem Instance.setRegs_regs (m : Instance) (x : ResultRegs) : (m.setRegs x).regs = x := rfl
@[simp] theorem Instance.setRegs_cascade (m : Instance) (x : ResultRegs) : (m.setRegs x).cascade = m.cascade := rfl
@[simp] theorem Instance.setRegs_ret (m : Instance) (x : ResultRegs) : (m.setRegs x).ret = m.ret := rfl
@[simp] theorem Instance.setCascade_fb (m : Instance) (x : Cascade) : (m.setCascade x).fb = m.fb := rfl
@[simp] theorem Instance.setCascade_frameLen (m : Instance) (x : Cascade) : (m.setCascade x).frameLen = m.frameLen := rfl
@[simp] theorem Instance.setCascade_busy (m : Instance) (x : Cascade) : (m.setCascade x).busy = m.busy := rfl
@[simp] theorem Instance.setCascade_regs (m : Instance) (x : Cascade) : (m.setCascade x).regs = m.regs := rfl
@[simp] theorem Instance.setCascade_cascade (m : Instance) (x : Cascade) : (m.setCascade x).cascade = x := rfl
@[simp] theorem Instance.setCascade_ret (m : Instance) (x : Cascade) : (m.setCascade x).ret = m.ret := rfl
@[simp] theorem Instance.setRet_fb (m : Instance) (x : Value) : (m.setRet x).fb = m.fb := rfl
@[simp] theorem Instance.setRet_frameLen (m : Instance) (x : Value) : (m.setRet x).frameLen = m.frameLen := rfl
@[simp] theorem Instance.setRet_busy (m : Instance) (x : Value) : (m.setRet x).busy = m.busy := rfl
@[simp] theorem Instance.setRet_regs (m : Instance) (x : Value) : (m.setRet x).regs = m.regs := rfl
@[simp] theorem Instance.setRet_cascade (m : Instance) (x : Value) : (m.setRet x).cascade = m.cascade := rfl
@[simp] theorem Instance.setRet_ret (m : Instance) (x : Value) : (m.setRet x).ret = x := rfl

@[simp] theorem State.setHere_before (s : State) (x : Instance) : (s.setHere x).before = s.before := rfl
@[simp] theorem State.setHere_here (s : State) (x : Instance) : (s.setHere x).here = x := rfl
@[simp] theorem State.setHere_after (s : State) (x : Instance) : (s.setHere x).after = s.after := rfl
@[simp] theorem State.setHere_events (s : State) (x : Instance) : (s.setHere x).events = s.events := rfl
@[simp] theorem State.setHere_hostData (s : State) (x : Instance) : (s.setHere x).hostData = s.hostData := rfl
@[simp] theorem State.setEvents_before (s : State) (x : List Event) : (s.setEvents x).before = s.before := rfl
@[simp] theorem State.setEvents_here (s : State) (x : List Event) : (s.setEvents x).here = s.here := rfl
@[simp] theorem State.setEvents_after (s : State) (x : List Event) : (s.setEvents x).after = s.after := rfl
@[simp] theorem State.setEvents_events (s : State) (x : List Event) : (s.setEvents x).events = x := rfl
@[simp] theorem State.setEvents_hostData (s : State) (x : List Event) : (s.setEvents x).hostData = s.hostData := rfl
@[simp] theorem State.setHostData_before (s : State) (x : Value) : (s.setHostData x).before = s.before := rfl
@[simp] theorem State.setHostData_here (s : State) (x : Value) : (s.setHostData x).here = s.here := rfl
@[simp] theorem State.setHostData_after (s : State) (x : Value) : (s.setHostData x).after = s.after := rfl
@[simp] theorem State.setHostData_events (s : State) (x : Value) : (s.setHostData x).events = s.events := rfl
@[simp] theorem State.setHostData_hostData (s : State) (x : Value) : (s.setHostData x).hostData = x := rfl

/-- The frame's length is FRAME_LEN once written. -/
@[simp] theorem frameBytes_of_frameLen {m : Instance} {l : Half} (h : m.frameLen = some l) : m.frameBytes = l.toNat := by
  simp [Instance.frameBytes, h]

@[simp] theorem returns_before (v : Value) (s : State) : (returns v s).before = s.before := rfl
@[simp] theorem returns_after (v : Value) (s : State) : (returns v s).after = s.after := rfl
@[simp] theorem returns_events (v : Value) (s : State) : (returns v s).events = s.events := rfl
@[simp] theorem returns_hostData (v : Value) (s : State) : (returns v s).hostData = s.hostData := rfl
@[simp] theorem returns_here (v : Value) (s : State) : (returns v s).here = s.here.setRet v := rfl
@[simp] theorem moves_before (v : Value) (c : Cascade) (s : State) : (moves v c s).before = s.before := rfl
@[simp] theorem moves_after (v : Value) (c : Cascade) (s : State) : (moves v c s).after = s.after := rfl
@[simp] theorem moves_events (v : Value) (c : Cascade) (s : State) : (moves v c s).events = s.events := rfl
@[simp] theorem moves_hostData (v : Value) (c : Cascade) (s : State) : (moves v c s).hostData = s.hostData := rfl
@[simp] theorem moves_here (v : Value) (c : Cascade) (s : State) :
    (moves v c s).here = (s.here.setRet v).setCascade c := rfl
@[simp] theorem writeResult_before (r : Result) (s : State) : (writeResult r s).before = s.before := rfl
@[simp] theorem writeResult_after (r : Result) (s : State) : (writeResult r s).after = s.after := rfl
@[simp] theorem writeResult_events (r : Result) (s : State) : (writeResult r s).events = s.events := rfl
@[simp] theorem writeResult_hostData (r : Result) (s : State) : (writeResult r s).hostData = s.hostData := rfl
@[simp] theorem writeResult_regs (r : Result) (s : State) : (writeResult r s).here.regs = resultRegs r := rfl
@[simp] theorem writeResult_busy (r : Result) (s : State) : (writeResult r s).here.busy = false := rfl
@[simp] theorem writeResult_fb (r : Result) (s : State) : (writeResult r s).here.fb = s.here.fb := rfl
@[simp] theorem writeResult_frameLen (r : Result) (s : State) : (writeResult r s).here.frameLen = s.here.frameLen := rfl
@[simp] theorem writeResult_cascade (r : Result) (s : State) : (writeResult r s).here.cascade = Cascade.start 0 := rfl

/-- The turn passing to an instance changes no instance, no turn still to come and nothing the host has read, and gives
the turn to the instance of that number. -/
theorem focus_spec {s t : State} {i : Nat} (h : s.focus i = some t) :
    t.instances = s.instances ∧ t.before.length = i ∧ t.events = s.events ∧ t.hostData = s.hostData
      ∧ s.instances[i]? = some t.here := by
  unfold State.focus at h
  split at h
  · simp at h
  · rename_i m rest hd
    simp only [Option.some.injEq] at h
    subst h
    have hlt : i < s.instances.length := by
      by_contra hge
      rw [List.drop_eq_nil_of_le (by omega)] at hd
      simp at hd
    refine ⟨?_, by simp [List.length_take]; omega, rfl, rfl, ?_⟩
    · show List.take i s.instances ++ m :: rest = s.instances
      rw [← hd, List.take_append_drop]
    · rw [List.drop_eq_getElem_cons hlt, List.cons.injEq] at hd
      simp [List.getElem?_eq_getElem hlt, hd.1]

/-- The turn can pass to exactly the instances there are. -/
theorem focus_isSome (s : State) (i : Nat) : (s.focus i).isSome = decide (i < s.instances.length) := by
  unfold State.focus
  split
  · rename_i h
    have := List.drop_eq_nil_iff.mp h
    simp; omega
  · rename_i h
    have : i < s.instances.length := by
      by_contra hge
      rw [List.drop_eq_nil_of_le (by omega)] at h
      simp at h
    simp [this]

/-- The turn passing to the instance that has it already changes nothing. -/
theorem focus_self (s : State) : s.focus s.before.length = some s := by
  simp [State.focus, State.instances]

end Sys2Proof.Machine
end

