-- ==== Sys2Proof/Laws/Memory.lean ====
section
/-! SUPPORT. The frame buffer's contents: read after write, canonical form, and the guarded reads. -/
namespace Sys2Proof.Machine

/-- Every offset below `lo` reads as the unlisted value in a memory that is canonical from `lo` on. -/
theorem read_below {m : Memory} {lo a : Nat} (h : m.wfFrom lo = true) (ha : a < lo) : m.read a = Memory.fill := by
  induction m generalizing lo with
  | nil => rfl
  | cons c m ih =>
    obtain ⟨k, v⟩ := c
    simp only [Memory.wfFrom, Bool.and_eq_true, decide_eq_true_eq] at h
    rw [Memory.read, if_neg (by omega)]
    exact ih h.2 (by omega)

/-- Read after write, in a canonical memory. -/
theorem read_write {m : Memory} {lo : Nat} (h : m.wfFrom lo = true) (a b : Nat) (v : Byte) :
    (m.write a v).read b = if b = a then v else m.read b := by
  induction m generalizing lo with
  | nil => by_cases hv : v = Memory.fill <;> simp [Memory.write, Memory.read, hv]
  | cons c m ih =>
    obtain ⟨k, w⟩ := c
    simp only [Memory.wfFrom, Bool.and_eq_true, decide_eq_true_eq] at h
    have hk : ∀ x < k + 1, Memory.read m x = Memory.fill := fun x hx => read_below h.2 hx
    unfold Memory.write
    by_cases hv : v = Memory.fill
    · rcases lt_trichotomy a k with hlt | rfl | hgt
      · by_cases hb : b = a
        · subst hb; simp [hv, hlt, Memory.read, Nat.ne_of_lt hlt, hk b (by omega)]
        · simp [hv, hlt, hb]
      · by_cases hb : b = a
        · subst hb; simp [hv, hk b (by omega)]
        · simp [hv, hb, Memory.read]
      · by_cases hb : b = k
        · subst hb; simp [Nat.not_lt.mpr (le_of_lt hgt), Nat.ne_of_gt hgt, Nat.ne_of_lt hgt, Memory.read]
        · simp [Nat.not_lt.mpr (le_of_lt hgt), Nat.ne_of_gt hgt, Memory.read, hb, ih h.2]
    · rcases lt_trichotomy a k with hlt | rfl | hgt
      · simp [hv, hlt, Memory.read]
      · by_cases hb : b = a <;> simp [hv, Memory.read, hb]
      · by_cases hb : b = k
        · subst hb; simp [Nat.not_lt.mpr (le_of_lt hgt), Nat.ne_of_gt hgt, Nat.ne_of_lt hgt, Memory.read]
        · simp [Nat.not_lt.mpr (le_of_lt hgt), Nat.ne_of_gt hgt, Memory.read, hb, ih h.2]

/-- A canonical memory from an offset on is one from every lower offset on. -/
theorem wfFrom_mono {m : Memory} {lo lo' : Nat} (h : m.wfFrom lo = true) (hle : lo' ≤ lo) : m.wfFrom lo' = true := by
  cases m with
  | nil => rfl
  | cons c m =>
    obtain ⟨k, v⟩ := c
    simp only [Memory.wfFrom, Bool.and_eq_true, decide_eq_true_eq] at h ⊢
    exact ⟨⟨⟨by omega, h.1.1.2⟩, h.1.2⟩, h.2⟩

/-- Writing one byte at an offset FB has keeps the canonical form. -/
theorem wfFrom_write {m : Memory} {lo a : Nat} (h : m.wfFrom lo = true) (hlo : lo ≤ a) (ha : a < Config.MAX_FRAME_LEN)
    (v : Byte) : (m.write a v).wfFrom lo = true := by
  induction m generalizing lo with
  | nil => by_cases hv : v = Memory.fill <;> simp [Memory.write, Memory.wfFrom, hv, hlo, ha]
  | cons c m ih =>
    obtain ⟨k, w⟩ := c
    have h' := h
    simp only [Memory.wfFrom, Bool.and_eq_true, decide_eq_true_eq] at h
    unfold Memory.write
    by_cases hv : v = Memory.fill
    · rcases lt_trichotomy a k with hlt | rfl | hgt
      · simpa [hv, hlt] using h'
      · simp only [hv, if_true, lt_irrefl, if_false]; exact wfFrom_mono h.2 (by omega)
      · simp only [Nat.not_lt.mpr (le_of_lt hgt), Nat.ne_of_gt hgt, if_false, Memory.wfFrom, Bool.and_eq_true,
          decide_eq_true_eq]
        exact ⟨h.1, ih h.2 (by omega)⟩
    · rcases lt_trichotomy a k with hlt | rfl | hgt
      · simp only [hlt, hv, if_true, if_false, Memory.wfFrom, Bool.and_eq_true, decide_eq_true_eq]
        exact ⟨⟨⟨hlo, ha⟩, hv⟩, ⟨⟨⟨by omega, h.1.1.2⟩, h.1.2⟩, h.2⟩⟩
      · simp only [lt_irrefl, hv, if_true, if_false, Memory.wfFrom, Bool.and_eq_true, decide_eq_true_eq]
        exact ⟨⟨⟨hlo, ha⟩, hv⟩, h.2⟩
      · simp only [Nat.not_lt.mpr (le_of_lt hgt), Nat.ne_of_gt hgt, if_false, Memory.wfFrom, Bool.and_eq_true,
          decide_eq_true_eq]
        exact ⟨h.1, ih h.2 (by omega)⟩

/-- Writing bytes at offsets FB has keeps the canonical form. -/
theorem wf_writeBytes {m : Memory} (h : m.wf = true) (o : Nat) (bs : List Byte)
    (hb : bs = [] ∨ o + bs.length ≤ Config.MAX_FRAME_LEN) : (m.writeBytes o bs).wf = true := by
  induction bs generalizing m o with
  | nil => exact h
  | cons b bs ih =>
    have hlen : o + (bs.length + 1) ≤ Config.MAX_FRAME_LEN := by simpa using hb
    exact ih (wfFrom_write h (Nat.zero_le o) (by omega) b) (o + 1) (.inr (by omega))

/-- A byte read after bytes were written: one of them inside their range, what was there outside it. -/
theorem read_writeBytes {m : Memory} (h : m.wf = true) (o : Nat) (bs : List Byte)
    (hb : bs = [] ∨ o + bs.length ≤ Config.MAX_FRAME_LEN) (a : Nat) :
    (m.writeBytes o bs).read a = if o ≤ a then bs.getD (a - o) (m.read a) else m.read a := by
  induction bs generalizing m o with
  | nil => simp [Memory.writeBytes]
  | cons b bs ih =>
    have hlen : o + (bs.length + 1) ≤ Config.MAX_FRAME_LEN := by simpa using hb
    rw [Memory.writeBytes, ih (wfFrom_write h (Nat.zero_le o) (by omega) b) (o + 1) (.inr (by omega)), read_write h]
    rcases lt_trichotomy a o with hlt | rfl | hgt
    · simp [Nat.not_le.mpr hlt, Nat.not_le.mpr (Nat.lt_succ_of_lt hlt), Nat.ne_of_lt hlt]
    · simp
    · obtain ⟨d, rfl⟩ : ∃ d, a = o + d + 1 := ⟨a - o - 1, by omega⟩
      simp [show o + 1 ≤ o + d + 1 by omega, show o ≤ o + d + 1 by omega, show o + d + 1 - (o + 1) = d by omega,
        show o + d + 1 - o = d + 1 by omega, show ¬ o + d + 1 = o by omega]

/-- Two canonical memories that read alike are equal. -/
theorem memory_ext {m m' : Memory} {lo lo' : Nat} (h : m.wfFrom lo = true) (h' : m'.wfFrom lo' = true)
    (heq : ∀ a, m.read a = m'.read a) : m = m' := by
  induction m generalizing m' lo lo' with
  | nil =>
    cases m' with
    | nil => rfl
    | cons c m' =>
      obtain ⟨k, v⟩ := c
      simp only [Memory.wfFrom, Bool.and_eq_true, decide_eq_true_eq] at h'
      have := heq k
      simp [Memory.read] at this
      exact absurd this.symm h'.1.2
  | cons c m ih =>
    obtain ⟨k, v⟩ := c
    have hw := h
    simp only [Memory.wfFrom, Bool.and_eq_true, decide_eq_true_eq] at h
    cases m' with
    | nil =>
      have := heq k
      simp [Memory.read] at this
      exact absurd this h.1.2
    | cons c' m' =>
      obtain ⟨k', v'⟩ := c'
      have hw' := h'
      simp only [Memory.wfFrom, Bool.and_eq_true, decide_eq_true_eq] at h'
      have hkk : k = k' := by
        rcases lt_trichotomy k k' with hlt | he | hgt
        · have := heq k
          rw [read_below (lo := k') (m := (k', v') :: m') (by simp [Memory.wfFrom, h'.1.1.2, h'.1.2, h'.2]) hlt] at this
          simp [Memory.read] at this
          exact absurd this h.1.2
        · exact he
        · have := heq k'
          rw [read_below (lo := k) (m := (k, v) :: m) (by simp [Memory.wfFrom, h.1.1.2, h.1.2, h.2]) hgt] at this
          simp [Memory.read] at this
          exact absurd this.symm h'.1.2
      subst hkk
      have hv : v = v' := by simpa [Memory.read] using heq k
      subst hv
      congr 1
      refine ih h.2 h'.2 fun a => ?_
      by_cases ha : a = k
      · subst ha; rw [read_below h.2 (by omega), read_below h'.2 (by omega)]
      · simpa [Memory.read, ha] using heq a

/-! ### Guarded reads -/

/-- A read inside the frame answers its value. -/
theorem admitted_ok {α : Type} {m : Instance} {a n : Nat} (v : α) (h : a + n ≤ m.frameBytes) :
    admitted m a n v = .ok v := if_pos h

/-- A read outside the frame is a fault of the model, whatever it would have read. -/
theorem admitted_error {α : Type} {m : Instance} {a n : Nat} (v : α) (h : m.frameBytes < a + n) :
    admitted m a n v = .error .readOutsideFrame := if_neg (by omega)

/-- Element i of the bytes from an offset. -/
@[simp] theorem getElem_bytes (fb : Memory) (a n i : Nat) (h : i < n) : (fb.bytes a n)[i] = fb.read (a + i) := by
  simp [Memory.bytes]

end Sys2Proof.Machine
end

