-- ==== Sys2Proof/Laws/Decode.lean ====
section
/-! SUPPORT. Byte order, the rows a discriminator selects, and the extractors as arithmetic. -/
namespace Sys2Proof

/-- The two wire bytes of a 16-bit value assemble to it. -/
@[simp] theorem be16_wire (v : Half) : be16 (v.extractLsb' 8 8) (v.extractLsb' 0 8) = v := by
  apply BitVec.eq_of_getLsbD_eq
  intro i hi
  simp only [be16, BitVec.getLsbD_append, BitVec.getLsbD_extractLsb']
  split
  · simp [*]
  · rw [show 8 + (i - 8) = i by omega]; simp; omega

/-- The four wire bytes of a 32-bit value assemble to it. -/
@[simp] theorem be32_wire (v : Word) :
    be32 (v.extractLsb' 24 8) (v.extractLsb' 16 8) (v.extractLsb' 8 8) (v.extractLsb' 0 8) = v := by
  apply BitVec.eq_of_getLsbD_eq
  intro i hi
  simp only [be32, BitVec.getLsbD_append, BitVec.getLsbD_extractLsb']
  split
  · simp [*]
  · split
    · rw [show 8 + (i - 8) = i by omega]; simp [*]
    · split
      · rw [show 16 + (i - 8 - 8) = i by omega]; simp [*]
      · rw [show 24 + (i - 8 - 8 - 8) = i by omega]; simp; omega

/-- 16-bit assembly as a number: `256 × hi + lo`. -/
theorem be16_toNat (hi lo : Byte) : (be16 hi lo).toNat = 256 * hi.toNat + lo.toNat := by
  have h := lo.isLt
  simp only [be16, BitVec.toNat_append, Nat.shiftLeft_eq]
  rw [Nat.mul_comm, ← Nat.two_pow_add_eq_or_of_lt h]

/-- 30_encoding.md R116, R118: one ethertype selects IPV4_DECODE, every other value the default row. -/
theorem l3Target_eq (v : Half) : l3Target v = if v = Config.ETHERTYPE_IPV4 then .ipv4Decode else .ethUnhandled := by
  have hand : v &&& 65535#16 = v := by
    rw [show 65535#16 = BitVec.allOnes 16 by decide, BitVec.and_allOnes]
  by_cases h : v = Config.ETHERTYPE_IPV4
  · subst h; decide
  · have hne : ¬ v &&& 65535#16 = Config.ETHERTYPE_IPV4 := by rw [hand]; exact h
    rw [if_neg h, l3Target, ethertypeRows, selectRow]
    refine (congrArg (Option.getD · _) (if_neg hne)).trans ?_
    simp [selectRow]

/-- 30_encoding.md R117, R118: one protocol selects TCP_DECODE, every other value the default row. -/
theorem l4Target_eq (v : Byte) : l4Target v = if v = Config.IPPROTO_TCP then .tcpDecode else .ipv4Unhandled := by
  have hand : v &&& 255#8 = v := by
    rw [show 255#8 = BitVec.allOnes 8 by decide, BitVec.and_allOnes]
  by_cases h : v = Config.IPPROTO_TCP
  · subst h; decide
  · have hne : ¬ v &&& 255#8 = Config.IPPROTO_TCP := by rw [hand]; exact h
    rw [if_neg h, l4Target, ipprotoRows, selectRow]
    refine (congrArg (Option.getD · _) (if_neg hne)).trans ?_
    simp [selectRow]

/-- An operand that fits its width is read as it is. -/
theorem operand_toNat {w : Nat} (v : BitVec w) : operand w v.toNat = .ok v := by
  simp [operand, v.isLt]

end Sys2Proof

namespace Sys2Proof.Machine

theorem checkLen_iff (len need : Half) : checkLen len need = true ↔ need.toNat ≤ len.toNat := by simp [checkLen]

theorem checkLen_false_iff (len need : Half) : checkLen len need = false ↔ len.toNat < need.toNat := by simp [checkLen]

/-- 40_boundary_and_extractors.md R148: LEN_X4 is a multiplication by 4 that never overflows. -/
theorem lengthX4_toNat (nib : Nibble) : (lengthX4 nib).toNat = nib.toNat * 4 := by
  have h := nib.isLt
  simp [lengthX4, Config.LEN_SCALE_SHIFT, Nat.shiftLeft_eq]
  omega

theorem zext_toNat (h : Byte) : (h.zeroExtend 16).toNat = h.toNat := by
  have := h.isLt
  simp
  omega

/-- The offset of a cut that fits 16 bits (40_boundary_and_extractors.md R142). -/
theorem cutOffset_ok {b : Half} (len : Half) {h : Byte} (hfit : b.toNat + h.toNat ≤ Config.MAX_FRAME_LEN) :
    cutOffset b len h = b + h.zeroExtend 16 := if_pos hfit

/-- Every cut whose check holds, whatever its offset (40_boundary_and_extractors.md R142). -/
theorem cutSlice_some {b len : Half} {h : Byte} (hh : h.toNat ≤ len.toNat) :
    cutSlice b len h = some ⟨cutOffset b len h, len - h.zeroExtend 16⟩ := by
  have hc : checkLen len (h.zeroExtend 16) = true := (checkLen_iff _ _).mpr (by rw [zext_toNat]; exact hh)
  rw [cutSlice, hc, if_neg (by simp)]

/-- 40_boundary_and_extractors.md R142: the cut of a slice of the frame. -/
theorem cutSlice_ok {b len : Half} {h : Byte} (hh : h.toNat ≤ len.toNat) (hfit : b.toNat + len.toNat ≤ Config.MAX_FRAME_LEN) :
    cutSlice b len h = some ⟨b + h.zeroExtend 16, len - h.zeroExtend 16⟩ := by
  rw [cutSlice_some hh, cutOffset_ok len (by omega)]

/-- A cut longer than its slice fails (40_boundary_and_extractors.md R142). -/
theorem cutSlice_fail {b len : Half} {h : Byte} (hh : len.toNat < h.toNat) : cutSlice b len h = none := by
  have hc : checkLen len (h.zeroExtend 16) = false := (checkLen_false_iff _ _).mpr (by rw [zext_toNat]; exact hh)
  rw [cutSlice, if_pos hc]

/-- The offset of a cut, as a number (40_boundary_and_extractors.md R152). -/
theorem cut_off_toNat {b : Half} {h : Byte} (hfit : b.toNat + h.toNat ≤ Config.MAX_FRAME_LEN) :
    (b + h.zeroExtend 16).toNat = b.toNat + h.toNat := by
  rw [BitVec.toNat_add, zext_toNat, Nat.mod_eq_of_lt]
  simp only [Config.MAX_FRAME_LEN] at hfit
  omega

/-- The length of a cut, as a number (40_boundary_and_extractors.md R152). -/
theorem cut_len_toNat {len : Half} {h : Byte} (hh : h.toNat ≤ len.toNat) :
    (len - h.zeroExtend 16).toNat = len.toNat - h.toNat := by
  rw [BitVec.toNat_sub_of_le (by rw [BitVec.le_def, zext_toNat]; exact hh), zext_toNat]

/-- The payload cut of a decoder that has made its own length checks never fails (40_boundary_and_extractors.md R142). -/
theorem cutPayload_ok {α : Type} (l : Layer) {b len : Half} {h : Byte} (k : Slice → α) (hh : h.toNat ≤ len.toNat)
    (hfit : b.toNat + len.toNat ≤ Config.MAX_FRAME_LEN) :
    cutPayload l b len h k = .record (k ⟨b + h.zeroExtend 16, len - h.zeroExtend 16⟩) := by
  rw [cutPayload, cutSlice_ok hh hfit]

/-- FRAME_LEN is at most 65535. -/
theorem frameBytes_le (m : Instance) : m.frameBytes ≤ Config.MAX_FRAME_LEN := by
  unfold Instance.frameBytes
  split
  · rename_i l _; have := l.isLt; simp only [Config.MAX_FRAME_LEN]; omega
  · exact Nat.zero_le _

/-! ### The decoders on a slice of the frame -/

/-- The record ETH_DECODE reads at offset `b` of a slice of `n` bytes. -/
def ethRecordAt (fb : Memory) (b n : Half) : EthRecord :=
  { dst := fb.bytes b.toNat 6, src := fb.bytes (b.toNat + 6) 6
    etype := be16 (fb.read (b.toNat + 12)) (fb.read (b.toNat + 13)), pay := ⟨b + 14, n - 14⟩ }

/-- 41_ethernet.md R170. -/
theorem ethDecode_spec {m : Instance} {b n : Half} (h : b.toNat + n.toNat ≤ m.frameBytes) :
    ethDecode m b n = .ok (if n.toNat < 14 then .truncated .eth else .record (ethRecordAt m.fb b n)) := by
  have hmax := frameBytes_le m
  have h14 : (BitVec.ofNat 16 Config.ETH_HDR_LEN).toNat = 14 := by decide
  by_cases hn : n.toNat < 14
  · rw [ethDecode, if_pos ((checkLen_false_iff _ _).mpr (by rw [h14]; exact hn)), if_pos hn]
  · have hc : checkLen n (BitVec.ofNat 16 Config.ETH_HDR_LEN) = true := (checkLen_iff _ _).mpr (by rw [h14]; omega)
    rw [ethDecode, hc, if_neg (by simp), if_neg hn]
    simp only [readBytes, readBe16, memBytes, memRead16]
    rw [admitted_ok _ (by simp; omega), admitted_ok _ (by simp; omega), admitted_ok _ (by simp; omega)]
    simp only [bind, Except.bind, pure, Except.pure]
    rw [cutPayload_ok _ _ (by simp [Config.ETH_HDR_LEN]; omega) (by omega)]
    rfl

/-- The header length IPV4_DECODE reads at offset `b`. -/
def ipv4HlenAt (fb : Memory) (b : Half) : Byte := lengthX4 (nibbleLo (fb.read b.toNat))

/-- The record IPV4_DECODE reads at offset `b` of a slice of `n` bytes. -/
def ipv4RecordAt (fb : Memory) (b n : Half) : Ipv4Record :=
  { ver := nibbleHi (fb.read b.toNat), hlen := ipv4HlenAt fb b, ttl := fb.read (b.toNat + 8)
    proto := fb.read (b.toNat + 9), src := fb.bytes (b.toNat + 12) 4, dst := fb.bytes (b.toNat + 16) 4
    pay := ⟨b + (ipv4HlenAt fb b).zeroExtend 16, n - (ipv4HlenAt fb b).zeroExtend 16⟩ }

/-- 42_ipv4.md R190. -/
theorem ipv4Decode_spec {m : Instance} {b n : Half} (h : b.toNat + n.toNat ≤ m.frameBytes) :
    ipv4Decode m b n =
      .ok (if n.toNat < 20 ∨ n.toNat < (ipv4HlenAt m.fb b).toNat ∨ (ipv4HlenAt m.fb b).toNat < 20 then .truncated .ipv4
        else .record (ipv4RecordAt m.fb b n)) := by
  have hmax := frameBytes_le m
  have h20 : (BitVec.ofNat 16 Config.IPV4_MIN_LEN).toNat = 20 := by decide
  by_cases hn : n.toNat < 20
  · rw [ipv4Decode, if_pos ((checkLen_false_iff _ _).mpr (by rw [h20]; exact hn)), if_pos (.inl hn)]
  · have hc : checkLen n (BitVec.ofNat 16 Config.IPV4_MIN_LEN) = true := (checkLen_iff _ _).mpr (by rw [h20]; omega)
    rw [ipv4Decode, hc, if_neg (by simp)]
    simp only [readU8, readBytes, memRead8, memBytes]
    rw [admitted_ok _ (by simp; omega), admitted_ok _ (by simp; omega), admitted_ok _ (by simp; omega),
      admitted_ok _ (by simp; omega), admitted_ok _ (by simp; omega)]
    simp only [bind, Except.bind, pure, Except.pure]
    change (if checkLen n ((ipv4HlenAt m.fb b).zeroExtend 16) = false then Except.ok (Decoded.truncated Layer.ipv4)
      else if (ipv4HlenAt m.fb b).toNat < 20 then Except.ok (Decoded.truncated Layer.ipv4) else _) = _
    by_cases h1 : n.toNat < (ipv4HlenAt m.fb b).toNat
    · rw [if_pos ((checkLen_false_iff _ _).mpr (by rw [zext_toNat]; exact h1)), if_pos (.inr (.inl h1))]
    · have hc1 : checkLen n ((ipv4HlenAt m.fb b).zeroExtend 16) = true :=
        (checkLen_iff _ _).mpr (by rw [zext_toNat]; omega)
      rw [hc1, if_neg (by simp)]
      by_cases h2 : (ipv4HlenAt m.fb b).toNat < 20
      · rw [if_pos h2, if_pos (.inr (.inr h2))]
      · rw [if_neg h2, if_neg (by omega)]
        exact congrArg Except.ok (cutPayload_ok (h := ipv4HlenAt m.fb b) _ _ (by omega) (by omega))

/-- The offset/flags word TCP_DECODE reads at offset `b`. -/
def tcpWordAt (fb : Memory) (b : Half) : Half := be16 (fb.read (b.toNat + 12)) (fb.read (b.toNat + 13))

/-- The header length TCP_DECODE reads at offset `b`. -/
def tcpDoffAt (fb : Memory) (b : Half) : Byte := lengthX4 (dataOffset (tcpWordAt fb b))

/-- The record TCP_DECODE reads at offset `b` of a slice of `n` bytes. -/
def tcpRecordAt (fb : Memory) (b n : Half) : TcpRecord :=
  { sport := be16 (fb.read b.toNat) (fb.read (b.toNat + 1))
    dport := be16 (fb.read (b.toNat + 2)) (fb.read (b.toNat + 3))
    seq := be32 (fb.read (b.toNat + 4)) (fb.read (b.toNat + 5)) (fb.read (b.toNat + 6)) (fb.read (b.toNat + 7))
    ack := be32 (fb.read (b.toNat + 8)) (fb.read (b.toNat + 9)) (fb.read (b.toNat + 10)) (fb.read (b.toNat + 11))
    doff := tcpDoffAt fb b
    flags := flagsOf (tcpWordAt fb b)
    pay := ⟨b + (tcpDoffAt fb b).zeroExtend 16, n - (tcpDoffAt fb b).zeroExtend 16⟩ }

/-- 43_tcp.md R210. -/
theorem tcpDecode_spec {m : Instance} {b n : Half} (h : b.toNat + n.toNat ≤ m.frameBytes) :
    tcpDecode m b n =
      .ok (if n.toNat < 14 ∨ (tcpDoffAt m.fb b).toNat < 20 ∨ n.toNat < (tcpDoffAt m.fb b).toNat then .truncated .tcp
        else .record (tcpRecordAt m.fb b n)) := by
  have hmax := frameBytes_le m
  have h14 : (BitVec.ofNat 16 Config.TCP_FIXED_LEN).toNat = 14 := by decide
  by_cases hn : n.toNat < 14
  · rw [tcpDecode, if_pos ((checkLen_false_iff _ _).mpr (by rw [h14]; exact hn)), if_pos (.inl hn)]
  · have hc : checkLen n (BitVec.ofNat 16 Config.TCP_FIXED_LEN) = true := (checkLen_iff _ _).mpr (by rw [h14]; omega)
    rw [tcpDecode, hc, if_neg (by simp)]
    simp only [readBe16, readBe32, memRead16, memRead32]
    rw [admitted_ok _ (by simp; omega), admitted_ok _ (by simp; omega), admitted_ok _ (by simp; omega),
      admitted_ok _ (by simp; omega), admitted_ok _ (by simp; omega)]
    simp only [bind, Except.bind, pure, Except.pure]
    change (if (tcpDoffAt m.fb b).toNat < 20 then Except.ok (Decoded.truncated Layer.tcp)
      else if checkLen n ((tcpDoffAt m.fb b).zeroExtend 16) = false then Except.ok (Decoded.truncated Layer.tcp)
      else _) = _
    by_cases h1 : (tcpDoffAt m.fb b).toNat < 20
    · rw [if_pos h1, if_pos (.inr (.inl h1))]
    · rw [if_neg h1]
      by_cases h2 : n.toNat < (tcpDoffAt m.fb b).toNat
      · rw [if_pos ((checkLen_false_iff _ _).mpr (by rw [zext_toNat]; exact h2)), if_pos (.inr (.inr h2))]
      · have hc1 : checkLen n ((tcpDoffAt m.fb b).zeroExtend 16) = true :=
          (checkLen_iff _ _).mpr (by rw [zext_toNat]; omega)
        rw [hc1, if_neg (by simp), if_neg (by omega)]
        exact congrArg Except.ok (cutPayload_ok (h := tcpDoffAt m.fb b) _ _ (by omega) (by omega))

/-! ### What an outcome can be -/

/-- An evaluation of a primitive that answers a next state changes only the value it returns. -/
theorem answer_next {α : Type} {r : Except Fault α} {f : α → Value} {s t : State} (h : answer r f s = .next t) :
    ∃ a, r = .ok a ∧ t = returns (f a) s := by
  cases r with
  | error e => simp [answer] at h
  | ok a => exact ⟨a, rfl, by simpa [answer] using h.symm⟩

/-- A decoder that answers a next state raised TruncatedHeader or kept its record. -/
theorem settle_next {α : Type} {r : Except Fault (Decoded α)} {keep : α → State → State} {s t : State}
    (h : settle r keep s = .next t) :
    (∃ l, r = .ok (.truncated l) ∧ t = raiseTruncated l s) ∨ ∃ a, r = .ok (.record a) ∧ t = keep a s := by
  match r, h with
  | .ok (.truncated l), h => exact .inl ⟨l, rfl, by simpa [settle] using h.symm⟩
  | .ok (.record a), h => exact .inr ⟨a, rfl, by simpa [settle] using h.symm⟩
  | .error e, h => simp [settle] at h

/-- An operation that answers a next state keeps the other instances, the schedule and what the host has read, and on
its own instance FB and FRAME_LEN (20_memory.md R77, 10_state.md R48). -/
theorem exec_keeps {i : Instr} {s t : State} (h : exec i s = .next t) :
    t.before = s.before ∧ t.after = s.after ∧ t.events = s.events ∧ t.hostData = s.hostData
      ∧ t.here.fb = s.here.fb ∧ t.here.frameLen = s.here.frameLen := by
  have hret : ∀ v, t = returns v s → t.before = s.before ∧ t.after = s.after ∧ t.events = s.events
      ∧ t.hostData = s.hostData ∧ t.here.fb = s.here.fb ∧ t.here.frameLen = s.here.frameLen := by
    rintro v rfl; exact ⟨rfl, rfl, rfl, rfl, rfl, rfl⟩
  have hmov : ∀ v c, t = moves v c s → t.before = s.before ∧ t.after = s.after ∧ t.events = s.events
      ∧ t.hostData = s.hostData ∧ t.here.fb = s.here.fb ∧ t.here.frameLen = s.here.frameLen := by
    rintro v c rfl; exact ⟨rfl, rfl, rfl, rfl, rfl, rfl⟩
  cases i with
  | dispatch len =>
    simp only [exec, execDispatch] at h
    split at h
    · simp at h
    · simp only [Host.Outcome.next.injEq] at h; subst h; exact ⟨rfl, rfl, rfl, rfl, rfl, rfl⟩
  | ethDecode b n =>
    rcases settle_next (h : settle _ _ _ = _) with ⟨l, -, rfl⟩ | ⟨a, -, rfl⟩ <;> exact hmov _ _ rfl
  | ipv4Decode b n =>
    rcases settle_next (h : settle _ _ _ = _) with ⟨l, -, rfl⟩ | ⟨a, -, rfl⟩ <;> exact hmov _ _ rfl
  | tcpDecode b n =>
    rcases settle_next (h : settle _ _ _ = _) with ⟨l, -, rfl⟩ | ⟨a, -, rfl⟩ <;> exact hmov _ _ rfl
  | rdU8 b o => obtain ⟨a, -, rfl⟩ := answer_next (h : answer _ _ _ = _); exact hret _ rfl
  | rdBe16 b o => obtain ⟨a, -, rfl⟩ := answer_next (h : answer _ _ _ = _); exact hret _ rfl
  | rdBe32 b o => obtain ⟨a, -, rfl⟩ := answer_next (h : answer _ _ _ = _); exact hret _ rfl
  | rdBytes b o n =>
    cases n <;> (obtain ⟨a, -, rfl⟩ := answer_next (h : answer _ _ _ = _); exact hret _ rfl)
  | check _ _ | slice _ _ _ | nibHi _ | nibLo _ | lenX4 _ | bit _ _ =>
    exact hret _ (Host.Outcome.next.inj h).symm
  | ethUnhandled _ | ipv4Unhandled _ _ | ethTrunc _ | ipv4Trunc _ | tcpTrunc _ _ | tcpDone _ _ _ | selL3 _ _
  | selL4 _ _ => exact hmov _ _ (Host.Outcome.next.inj h).symm
  | resultWrite r =>
    obtain rfl := (Host.Outcome.next.inj h).symm
    exact ⟨rfl, rfl, rfl, rfl, rfl, rfl⟩

end Sys2Proof.Machine
end

