-- ==== Sys2Proof/Laws/PerInstr.lean ====
section
/-! SUPPORT. The family RowFormat: an operation is encoded in the format of its row of the opcode table (30_encoding.md
R125), one lemma per constructor. -/
namespace Sys2Proof.Laws.RowFormat

/-- The encoding of `i` is in the format its row names. -/
def Statement (i : Instr) : Prop := (encode i).format = i.format

theorem dispatch (len : Half) : Statement (.dispatch len) := rfl
theorem ethDecode (b n : Half) : Statement (.ethDecode b n) := rfl
theorem ipv4Decode (b n : Half) : Statement (.ipv4Decode b n) := rfl
theorem ethUnhandled (eth : EthRecord) : Statement (.ethUnhandled eth) := rfl
theorem tcpDecode (b n : Half) : Statement (.tcpDecode b n) := rfl
theorem ipv4Unhandled (eth : EthRecord) (ip : Ipv4Record) : Statement (.ipv4Unhandled eth ip) := rfl
theorem ethTrunc (len : Half) : Statement (.ethTrunc len) := rfl
theorem ipv4Trunc (eth : EthRecord) : Statement (.ipv4Trunc eth) := rfl
theorem tcpTrunc (eth : EthRecord) (ip : Ipv4Record) : Statement (.tcpTrunc eth ip) := rfl
theorem tcpDone (eth : EthRecord) (ip : Ipv4Record) (tcp : TcpRecord) : Statement (.tcpDone eth ip tcp) := rfl
theorem selL3 (etype : Half) (pay : Slice) : Statement (.selL3 etype pay) := rfl
theorem selL4 (proto : Byte) (pay : Slice) : Statement (.selL4 proto pay) := rfl
theorem check (len need : Half) : Statement (.check len need) := rfl
theorem slice (b len : Half) (h : Byte) : Statement (.slice b len h) := rfl
theorem rdU8 (b : Half) (o : Byte) : Statement (.rdU8 b o) := rfl
theorem rdBe16 (b : Half) (o : Byte) : Statement (.rdBe16 b o) := rfl
theorem rdBe32 (b : Half) (o : Byte) : Statement (.rdBe32 b o) := rfl
theorem rdBytes (b : Half) (o : Byte) (n : AddrLen) : Statement (.rdBytes b o n) := by cases n <;> rfl
theorem nibHi (x : Byte) : Statement (.nibHi x) := rfl
theorem nibLo (x : Byte) : Statement (.nibLo x) := rfl
theorem lenX4 (nib : Nibble) : Statement (.lenX4 nib) := rfl
theorem bit (w : Half) (n : Fin 6) : Statement (.bit w n) := rfl
theorem resultWrite (r : Result) : Statement (.resultWrite r) := rfl

end Sys2Proof.Laws.RowFormat
end

