-- ==== Sys2Proof/Laws/Safety.lean ====
section
/-! SUPPORT. What the Boolean predicates of WellFormed.lean and Safety.lean say, as facts about numbers, and that the
records a decoder reads meet them. -/
namespace Sys2Proof.Machine

theorem slice_wf_iff (p : Slice) : p.WellFormed = true ↔ p.off.toNat + p.len.toNat ≤ 65535 := decide_eq_true_iff

theorem legalHeaderLen_iff (least most : Nat) (h : Byte) :
    legalHeaderLen least most h = true ↔ least ≤ h.toNat ∧ h.toNat ≤ most ∧ h.toNat % 4 = 0 := by
  simp [legalHeaderLen, and_assoc]

theorem sameEnd_iff (p q : Slice) : p.sameEnd q = true ↔ p.off.toNat + p.len.toNat = q.off.toNat + q.len.toNat :=
  decide_eq_true_iff

theorem ethWf_iff (e : EthRecord) :
    e.WellFormed = true ↔ e.pay.off.toNat + e.pay.len.toNat ≤ 65535 ∧ e.pay.off.toNat = 14 := by
  rw [EthRecord.WellFormed, Bool.and_eq_true, slice_wf_iff, decide_eq_true_iff]; exact Iff.rfl

theorem ipv4Wf_iff (i : Ipv4Record) :
    i.WellFormed = true ↔ i.pay.off.toNat + i.pay.len.toNat ≤ 65535
      ∧ (20 ≤ i.hlen.toNat ∧ i.hlen.toNat ≤ 60 ∧ i.hlen.toNat % 4 = 0) ∧ i.pay.off.toNat = 14 + i.hlen.toNat := by
  rw [Ipv4Record.WellFormed, Bool.and_eq_true, Bool.and_eq_true, slice_wf_iff, legalHeaderLen_iff, decide_eq_true_iff,
    and_assoc]
  exact Iff.rfl

theorem tcpWf_iff (t : TcpRecord) :
    t.WellFormed = true ↔ t.pay.off.toNat + t.pay.len.toNat ≤ 65535
      ∧ (20 ≤ t.doff.toNat ∧ t.doff.toNat ≤ 60 ∧ t.doff.toNat % 4 = 0)
      ∧ 34 + t.doff.toNat ≤ t.pay.off.toNat ∧ t.pay.off.toNat ≤ 74 + t.doff.toNat := by
  rw [TcpRecord.WellFormed, Bool.and_eq_true, Bool.and_eq_true, Bool.and_eq_true, slice_wf_iff, legalHeaderLen_iff,
    decide_eq_true_iff, decide_eq_true_iff, and_assoc, and_assoc]
  exact Iff.rfl

theorem ethFits_iff (len : Half) (e : EthRecord) :
    ethFits len e = true ↔ e.pay.off.toNat = 14 ∧ e.pay.off.toNat + e.pay.len.toNat = len.toNat := by
  rw [ethFits, Bool.and_eq_true, decide_eq_true_iff, decide_eq_true_iff]; exact Iff.rfl

theorem ipv4Fits_iff (len : Half) (i : Ipv4Record) :
    ipv4Fits len i = true ↔ (20 ≤ i.hlen.toNat ∧ i.hlen.toNat ≤ 60 ∧ i.hlen.toNat % 4 = 0)
      ∧ i.pay.off.toNat = 14 + i.hlen.toNat ∧ i.pay.off.toNat + i.pay.len.toNat = len.toNat := by
  rw [ipv4Fits, Bool.and_eq_true, Bool.and_eq_true, legalHeaderLen_iff, decide_eq_true_iff, decide_eq_true_iff, and_assoc]
  exact Iff.rfl

theorem tcpFits_iff (len : Half) (i : Ipv4Record) (t : TcpRecord) :
    tcpFits len i t = true ↔ (20 ≤ t.doff.toNat ∧ t.doff.toNat ≤ 60 ∧ t.doff.toNat % 4 = 0)
      ∧ t.pay.off.toNat = i.pay.off.toNat + t.doff.toNat ∧ t.pay.off.toNat + t.pay.len.toNat = len.toNat := by
  rw [tcpFits, Bool.and_eq_true, Bool.and_eq_true, legalHeaderLen_iff, decide_eq_true_iff, decide_eq_true_iff, and_assoc]
  exact Iff.rfl

theorem isIpv4_iff (e : EthRecord) : isIpv4 e = true ↔ e.etype = Config.ETHERTYPE_IPV4 := decide_eq_true_iff

theorem isTcp_iff (i : Ipv4Record) : isTcp i = true ↔ i.proto = Config.IPPROTO_TCP := decide_eq_true_iff

/-! ### The records that the decoders read -/

theorem hlenAt_range (fb : Memory) (b : Half) : (ipv4HlenAt fb b).toNat ≤ 60 ∧ (ipv4HlenAt fb b).toNat % 4 = 0 := by
  have h := lengthX4_toNat (nibbleLo (fb.read b.toNat))
  have := (nibbleLo (fb.read b.toNat)).isLt
  unfold ipv4HlenAt; omega

theorem doffAt_range (fb : Memory) (b : Half) : (tcpDoffAt fb b).toNat ≤ 60 ∧ (tcpDoffAt fb b).toNat % 4 = 0 := by
  have h := lengthX4_toNat (dataOffset (tcpWordAt fb b))
  have := (dataOffset (tcpWordAt fb b)).isLt
  unfold tcpDoffAt; omega

theorem ethFits_at (fb : Memory) (len : Half) (h : ¬ len.toNat < 14) : ethFits len (ethRecordAt fb 0 len) = true := by
  have hs : (len - 14).toNat = len.toNat - 14 := BitVec.toNat_sub_of_le (by rw [BitVec.le_def]; simp; omega)
  have h0 : (0 + 14 : Half).toNat = 14 := by decide
  rw [ethFits_iff]
  simp only [ethRecordAt, hs, h0, true_and]
  omega

theorem ipv4Fits_at (fb : Memory) {len b n : Half} (hb : b.toNat = 14) (hn : b.toNat + n.toNat = len.toNat)
    (h : ¬ (n.toNat < 20 ∨ n.toNat < (ipv4HlenAt fb b).toNat ∨ (ipv4HlenAt fb b).toNat < 20)) :
    ipv4Fits len (ipv4RecordAt fb b n) = true := by
  have hl := len.isLt
  have hr := hlenAt_range fb b
  have ho := cut_off_toNat (b := b) (h := ipv4HlenAt fb b) (by simp only [Config.MAX_FRAME_LEN]; omega)
  have hp := cut_len_toNat (len := n) (h := ipv4HlenAt fb b) (by omega)
  rw [ipv4Fits_iff]
  simp only [ipv4RecordAt, ho, hp]
  omega

theorem tcpFits_at (fb : Memory) {len n : Half} (i : Ipv4Record) (hn : i.pay.off.toNat + n.toNat = len.toNat)
    (h : ¬ (n.toNat < 14 ∨ (tcpDoffAt fb i.pay.off).toNat < 20 ∨ n.toNat < (tcpDoffAt fb i.pay.off).toNat)) :
    tcpFits len i (tcpRecordAt fb i.pay.off n) = true := by
  have hl := len.isLt
  have hr := doffAt_range fb i.pay.off
  have ho := cut_off_toNat (b := i.pay.off) (h := tcpDoffAt fb i.pay.off) (by simp only [Config.MAX_FRAME_LEN]; omega)
  have hp := cut_len_toNat (len := n) (h := tcpDoffAt fb i.pay.off) (by omega)
  have hd : (tcpRecordAt fb i.pay.off n).doff = tcpDoffAt fb i.pay.off := rfl
  have ho' : (tcpRecordAt fb i.pay.off n).pay.off.toNat = _ := ho
  have hp' : (tcpRecordAt fb i.pay.off n).pay.len.toNat = _ := hp
  rw [tcpFits_iff, hd, ho', hp']
  omega

/-! ### The results that the terminal states report -/

theorem ethTruncResult_wf {len : Half} (h : len.toNat < 14) :
    (ethTruncResult len).WellFormed = true := by
  have hs : Slice.WellFormed ⟨0#16, len⟩ = true := by rw [slice_wf_iff]; simp; omega
  simp [Result.WellFormed, ethTruncResult, hs, Config.ETH_HDR_LEN, h]

theorem eth_wf {len : Half} {e : EthRecord} (h : ethFits len e = true) : e.WellFormed = true ∧ e.pay.WellFormed = true := by
  have hl := len.isLt
  rw [ethFits_iff] at h
  rw [ethWf_iff, slice_wf_iff]; omega

theorem ipv4_wf {len : Half} {i : Ipv4Record} (h : ipv4Fits len i = true) :
    i.WellFormed = true ∧ i.pay.WellFormed = true := by
  have hl := len.isLt
  rw [ipv4Fits_iff] at h
  rw [ipv4Wf_iff, slice_wf_iff]; omega

theorem tcp_wf {len : Half} {i : Ipv4Record} {t : TcpRecord} (hi : ipv4Fits len i = true) (h : tcpFits len i t = true) :
    t.WellFormed = true ∧ t.pay.WellFormed = true := by
  have hl := len.isLt
  rw [ipv4Fits_iff] at hi
  rw [tcpFits_iff] at h
  rw [tcpWf_iff, slice_wf_iff]; omega

theorem eth_ipv4_sameEnd {len : Half} {e : EthRecord} {i : Ipv4Record} (he : ethFits len e = true)
    (hi : ipv4Fits len i = true) : e.pay.sameEnd i.pay = true := by
  rw [ethFits_iff] at he; rw [ipv4Fits_iff] at hi; rw [sameEnd_iff]; omega

theorem ipv4_tcp_sameEnd {len : Half} {i : Ipv4Record} {t : TcpRecord} (hi : ipv4Fits len i = true)
    (h : tcpFits len i t = true) : i.pay.sameEnd t.pay = true := by
  rw [ipv4Fits_iff] at hi; rw [tcpFits_iff] at h; rw [sameEnd_iff]; omega

theorem ethUnhandledResult_wf {len : Half} {e : EthRecord} (he : ethFits len e = true) (ht : e.etype ≠ Config.ETHERTYPE_IPV4) :
    (ethUnhandledResult e).WellFormed = true := by
  simp [Result.WellFormed, ethUnhandledResult, eth_wf he, ht]

theorem ipv4TruncResult_wf {len : Half} {e : EthRecord} (he : ethFits len e = true) (ht : e.etype = Config.ETHERTYPE_IPV4) :
    (ipv4TruncResult e).WellFormed = true := by
  simp [Result.WellFormed, ipv4TruncResult, eth_wf he, ht]

theorem ipv4UnhandledResult_wf {len : Half} {e : EthRecord} {i : Ipv4Record} (he : ethFits len e = true)
    (ht : e.etype = Config.ETHERTYPE_IPV4) (hi : ipv4Fits len i = true) (hp : i.proto ≠ Config.IPPROTO_TCP) :
    (ipv4UnhandledResult e i).WellFormed = true := by
  simp [Result.WellFormed, ipv4UnhandledResult, eth_wf he, ipv4_wf hi, eth_ipv4_sameEnd he hi, ht, hp]

theorem tcpTruncResult_wf {len : Half} {e : EthRecord} {i : Ipv4Record} (he : ethFits len e = true)
    (ht : e.etype = Config.ETHERTYPE_IPV4) (hi : ipv4Fits len i = true) (hp : i.proto = Config.IPPROTO_TCP) :
    (tcpTruncResult e i).WellFormed = true := by
  simp [Result.WellFormed, tcpTruncResult, eth_wf he, ipv4_wf hi, eth_ipv4_sameEnd he hi, ht, hp]

theorem tcpDoneResult_wf {len : Half} {e : EthRecord} {i : Ipv4Record} {t : TcpRecord} (he : ethFits len e = true)
    (ht : e.etype = Config.ETHERTYPE_IPV4) (hi : ipv4Fits len i = true) (hp : i.proto = Config.IPPROTO_TCP)
    (hc : tcpFits len i t = true) : (tcpDoneResult e i t).WellFormed = true := by
  have ho := (tcpFits_iff _ _ _).mp hc
  simp [Result.WellFormed, tcpDoneResult, eth_wf he, ipv4_wf hi, tcp_wf hi hc, eth_ipv4_sameEnd he hi,
    ipv4_tcp_sameEnd hi hc, ht, hp, ho.2.1]

end Sys2Proof.Machine
end

