-- ==== Sys2Proof/Laws/Run.lean ====
section
/-! SUPPORT. What one single operation of a consistent request in flight does, and what the whole cascade answers. -/
namespace Sys2Proof.Machine

/-- How many single operations a request in flight still takes at most. -/
def opsLeft (sel : Selector) : Nat :=
  match sel with
  | .always => 7
  | .ethTypeMux => 6
  | .ethertype16 _ _ => 5
  | .ipProtoMux => 4
  | .ipproto8 _ _ => 3
  | .raised _ | .returned => 2
  | .finished _ => 1

/-- A single operation that moves a request in flight on, keeping it consistent. -/
def MovesOn (s : State) (op : Instr) : Prop :=
  ∃ v c, exec op s = .next (moves v c s) ∧ cascadeConsistent c = true ∧ c.len = s.here.cascade.len
    ∧ opsLeft c.sel < opsLeft s.here.cascade.sel

theorem ethDecode_movesOn {s : State} {len : Half} (hl : s.here.frameLen = some len)
    (hc : s.here.cascade = Cascade.start len) : MovesOn s (.ethDecode 0 len) := by
  have hfb := frameBytes_of_frameLen hl
  unfold MovesOn
  simp only [exec, execEthDecode, settle, ethDecode_spec (m := s.here) (b := 0) (n := len) (by rw [hfb]; simp), hc]
  by_cases h : len.toNat < 14
  · rw [if_pos h]
    exact ⟨_, _, rfl, by simp [hc, Cascade.start, cascadeConsistent, Config.ETH_HDR_LEN, h], by simp [hc, Cascade.start],
      by simp [Cascade.start, opsLeft]⟩
  · rw [if_neg h]
    refine ⟨_, _, rfl, ?_, by simp [hc, Cascade.start], by simp [Cascade.start, opsLeft]⟩
    simp only [hc, Cascade.start, cascadeConsistent]
    exact ethFits_at s.here.fb len h

theorem ipv4Decode_movesOn {s : State} {len : Half} {e : EthRecord} {d : List Byte} (hl : s.here.frameLen = some len)
    (hc : s.here.cascade = ⟨len, some e, none, none, .ethertype16 d e.pay⟩) (he : ethFits len e = true)
    (ht : isIpv4 e = true) : MovesOn s (.ipv4Decode e.pay.off e.pay.len) := by
  have hfb := frameBytes_of_frameLen hl
  have hn := (ethFits_iff _ _).mp he
  unfold MovesOn
  simp only [exec, execIpv4Decode, settle,
    ipv4Decode_spec (m := s.here) (b := e.pay.off) (n := e.pay.len) (by rw [hfb]; omega), hc]
  by_cases h : e.pay.len.toNat < 20 ∨ e.pay.len.toNat < (ipv4HlenAt s.here.fb e.pay.off).toNat
      ∨ (ipv4HlenAt s.here.fb e.pay.off).toNat < 20
  · rw [if_pos h]
    exact ⟨_, _, rfl, by simp [hc, cascadeConsistent, he, ht], by simp [hc], by simp [opsLeft]⟩
  · rw [if_neg h]
    refine ⟨_, _, rfl, ?_, by simp [hc], by simp [opsLeft]⟩
    simp [hc, cascadeConsistent, he, ht, ipv4Fits_at s.here.fb hn.1 hn.2 h]

theorem tcpDecode_movesOn {s : State} {len : Half} {e : EthRecord} {i : Ipv4Record} {d : List Byte}
    (hl : s.here.frameLen = some len) (hc : s.here.cascade = ⟨len, some e, some i, none, .ipproto8 d i.pay⟩)
    (he : ethFits len e = true) (ht : isIpv4 e = true) (hi : ipv4Fits len i = true) (hp : isTcp i = true) :
    MovesOn s (.tcpDecode i.pay.off i.pay.len) := by
  have hfb := frameBytes_of_frameLen hl
  have hn := (ipv4Fits_iff _ _).mp hi
  unfold MovesOn
  simp only [exec, execTcpDecode, settle,
    tcpDecode_spec (m := s.here) (b := i.pay.off) (n := i.pay.len) (by rw [hfb]; omega), hc]
  by_cases h : i.pay.len.toNat < 14 ∨ (tcpDoffAt s.here.fb i.pay.off).toNat < 20
      ∨ i.pay.len.toNat < (tcpDoffAt s.here.fb i.pay.off).toNat
  · rw [if_pos h]
    exact ⟨_, _, rfl, by simp [hc, cascadeConsistent, he, ht, hi, hp], by simp [hc], by simp [opsLeft]⟩
  · rw [if_neg h]
    refine ⟨_, _, rfl, ?_, by simp [hc], by simp [opsLeft]⟩
    simp [hc, cascadeConsistent, he, ht, hi, hp, tcpFits_at s.here.fb i hn.2.2 h]

/-- A terminal state moves a request in flight on to RESULT_WRITE. -/
theorem concludes_movesOn {s : State} {op : Instr} {r : Result} (hx : exec op s = .next (concludes r s))
    (hr : r.WellFormed = true) (hf : r.fin.off.toNat + r.fin.len.toNat = s.here.cascade.len.toNat)
    (hs : 1 < opsLeft s.here.cascade.sel) : MovesOn s op :=
  ⟨_, _, hx, by simp [cascadeConsistent, hr, hf], rfl, by simpa [opsLeft] using hs⟩

/-- The places of a consistent request in flight, with what holds at each. -/
inductive Place : Cascade → Prop where
  | always (len : Half) : Place ⟨len, none, none, none, .always⟩
  | ethTypeMux (len : Half) (e : EthRecord) (he : ethFits len e = true) : Place ⟨len, some e, none, none, .ethTypeMux⟩
  | ethertype16 (len : Half) (e : EthRecord) (he : ethFits len e = true) :
      Place ⟨len, some e, none, none, .ethertype16 (wire16 e.etype) e.pay⟩
  | ipProtoMux (len : Half) (e : EthRecord) (i : Ipv4Record) (he : ethFits len e = true) (ht : isIpv4 e = true)
      (hi : ipv4Fits len i = true) : Place ⟨len, some e, some i, none, .ipProtoMux⟩
  | ipproto8 (len : Half) (e : EthRecord) (i : Ipv4Record) (he : ethFits len e = true) (ht : isIpv4 e = true)
      (hi : ipv4Fits len i = true) : Place ⟨len, some e, some i, none, .ipproto8 [i.proto] i.pay⟩
  | raisedEth (len : Half) (h : len.toNat < 14) : Place ⟨len, none, none, none, .raised .eth⟩
  | raisedIpv4 (len : Half) (e : EthRecord) (he : ethFits len e = true) (ht : isIpv4 e = true) :
      Place ⟨len, some e, none, none, .raised .ipv4⟩
  | raisedTcp (len : Half) (e : EthRecord) (i : Ipv4Record) (he : ethFits len e = true) (ht : isIpv4 e = true)
      (hi : ipv4Fits len i = true) (hp : isTcp i = true) : Place ⟨len, some e, some i, none, .raised .tcp⟩
  | returned (len : Half) (e : EthRecord) (i : Ipv4Record) (t : TcpRecord) (he : ethFits len e = true)
      (ht : isIpv4 e = true) (hi : ipv4Fits len i = true) (hp : isTcp i = true) (hx : tcpFits len i t = true) :
      Place ⟨len, some e, some i, some t, .returned⟩
  | finished (len : Half) (e : Option EthRecord) (i : Option Ipv4Record) (t : Option TcpRecord) (r : Result)
      (hr : r.WellFormed = true) (hf : r.fin.off.toNat + r.fin.len.toNat = len.toNat) :
      Place ⟨len, e, i, t, .finished r⟩

theorem place_of_consistent {c : Cascade} (h : cascadeConsistent c = true) : Place c := by
  obtain ⟨len, eth, ip, tcp, sel⟩ := c
  unfold cascadeConsistent at h
  simp only at h
  split at h
  · exact .always len
  · exact .ethTypeMux len _ h
  · simp only [Bool.and_eq_true, decide_eq_true_eq] at h
    obtain ⟨⟨he, rfl⟩, rfl⟩ := h
    exact .ethertype16 len _ he
  · simp only [Bool.and_eq_true] at h
    exact .ipProtoMux len _ _ h.1.1 h.1.2 h.2
  · simp only [Bool.and_eq_true, decide_eq_true_eq] at h
    obtain ⟨⟨⟨⟨he, ht⟩, hi⟩, rfl⟩, rfl⟩ := h
    exact .ipproto8 len _ _ he ht hi
  · exact .raisedEth len (of_decide_eq_true h)
  · simp only [Bool.and_eq_true] at h
    exact .raisedIpv4 len _ h.1 h.2
  · simp only [Bool.and_eq_true] at h
    exact .raisedTcp len _ _ h.1.1.1 h.1.1.2 h.1.2 h.2
  · simp only [Bool.and_eq_true] at h
    exact .returned len _ _ _ h.1.1.1.1 h.1.1.1.2 h.1.1.2 h.1.2 h.2
  · simp only [Bool.and_eq_true, decide_eq_true_eq] at h
    exact .finished len _ _ _ _ h.1 h.2
  · simp at h

/-- Every consistent request in flight selects an operation: RESULT_WRITE of a well-formed result, or one that moves it
on (44_dispatch.md R230). -/
theorem selected_spec {s : State} (hl : s.here.frameLen = some s.here.cascade.len)
    (hc : cascadeConsistent s.here.cascade = true) :
    ∃ op, decode (.selected s.here.cascade) = .ok op
      ∧ ((∃ r, op = .resultWrite r ∧ r.WellFormed = true
            ∧ r.fin.off.toNat + r.fin.len.toNat = s.here.cascade.len.toNat) ∨ MovesOn s op) := by
  have hpl := place_of_consistent hc
  obtain ⟨c, hcc⟩ : ∃ c, s.here.cascade = c := ⟨_, rfl⟩
  rw [hcc] at hl hpl ⊢
  cases hpl with
  | always len => exact ⟨_, rfl, .inr (ethDecode_movesOn hl hcc)⟩
  | ethTypeMux len e he =>
    exact ⟨_, rfl, .inr ⟨_, _, rfl, by simp [hcc, cascadeConsistent, he], by simp [hcc], by simp [hcc, opsLeft]⟩⟩
  | ethertype16 len e he =>
    simp only [decode, decodeSelected, wire16, decodeEthertype, be16_wire, l3Target_eq]
    by_cases ht : e.etype = Config.ETHERTYPE_IPV4
    · simp only [if_pos ht]
      exact ⟨_, rfl, .inr (ipv4Decode_movesOn hl hcc he ((isIpv4_iff e).mpr ht))⟩
    · simp only [if_neg ht, needEth]
      exact ⟨_, rfl, .inr (concludes_movesOn rfl (ethUnhandledResult_wf he ht)
        (by rw [hcc]; exact ((ethFits_iff _ _).mp he).2) (by rw [hcc]; simp [opsLeft]))⟩
  | ipProtoMux len e i he ht hi =>
    exact ⟨_, rfl, .inr ⟨_, _, rfl, by simp [hcc, cascadeConsistent, he, ht, hi], by simp [hcc],
      by simp [hcc, opsLeft]⟩⟩
  | ipproto8 len e i he ht hi =>
    simp only [decode, decodeSelected, decodeIpproto, l4Target_eq]
    by_cases hp : i.proto = Config.IPPROTO_TCP
    · simp only [if_pos hp]
      exact ⟨_, rfl, .inr (tcpDecode_movesOn hl hcc he ht hi ((isTcp_iff i).mpr hp))⟩
    · simp only [if_neg hp, needEthIp]
      exact ⟨_, rfl, .inr (concludes_movesOn rfl (ipv4UnhandledResult_wf he ((isIpv4_iff e).mp ht) hi hp)
        (by rw [hcc]; exact ((ipv4Fits_iff _ _).mp hi).2.2) (by rw [hcc]; simp [opsLeft]))⟩
  | raisedEth len h =>
    exact ⟨_, rfl, .inr (concludes_movesOn rfl (ethTruncResult_wf h) (by rw [hcc]; simp [ethTruncResult])
      (by rw [hcc]; simp [opsLeft]))⟩
  | raisedIpv4 len e he ht =>
    exact ⟨_, rfl, .inr (concludes_movesOn rfl (ipv4TruncResult_wf he ((isIpv4_iff e).mp ht))
      (by rw [hcc]; exact ((ethFits_iff _ _).mp he).2) (by rw [hcc]; simp [opsLeft]))⟩
  | raisedTcp len e i he ht hi hp =>
    exact ⟨_, rfl, .inr (concludes_movesOn rfl
      (tcpTruncResult_wf he ((isIpv4_iff e).mp ht) hi ((isTcp_iff i).mp hp))
      (by rw [hcc]; exact ((ipv4Fits_iff _ _).mp hi).2.2) (by rw [hcc]; simp [opsLeft]))⟩
  | returned len e i t he ht hi hp hx =>
    exact ⟨_, rfl, .inr (concludes_movesOn rfl
      (tcpDoneResult_wf he ((isIpv4_iff e).mp ht) hi ((isTcp_iff i).mp hp) hx)
      (by rw [hcc]; exact ((tcpFits_iff _ _ _).mp hx).2.2) (by rw [hcc]; simp [opsLeft]))⟩
  | finished len e i t r hr hf => exact ⟨_, rfl, .inl ⟨r, rfl, hr, hf⟩⟩

/-- The result of a frame of `len` bytes, as a function of the frame buffer (44_dispatch.md R230, R246). -/
def resultOf (fb : Memory) (len : Half) : Result :=
  if len.toNat < 14 then ethTruncResult len
  else
    let e := ethRecordAt fb 0 len
    if e.etype ≠ Config.ETHERTYPE_IPV4 then ethUnhandledResult e
    else if e.pay.len.toNat < 20 ∨ e.pay.len.toNat < (ipv4HlenAt fb e.pay.off).toNat
        ∨ (ipv4HlenAt fb e.pay.off).toNat < 20 then ipv4TruncResult e
    else
      let i := ipv4RecordAt fb e.pay.off e.pay.len
      if i.proto ≠ Config.IPPROTO_TCP then ipv4UnhandledResult e i
      else if i.pay.len.toNat < 14 ∨ (tcpDoffAt fb i.pay.off).toNat < 20
          ∨ i.pay.len.toNat < (tcpDoffAt fb i.pay.off).toNat then tcpTruncResult e i
      else tcpDoneResult e i (tcpRecordAt fb i.pay.off i.pay.len)

/-- The whole cascade on a frame: it answers the result of the frame, which is well-formed and ends where the frame ends
(R230, R241, R247). -/
theorem runCascade_spec {m : Instance} {len : Half} (hl : m.frameLen = some len) :
    runCascade m len = .ok (resultOf m.fb len) ∧ (resultOf m.fb len).WellFormed = true
      ∧ (resultOf m.fb len).fin.off.toNat + (resultOf m.fb len).fin.len.toNat = len.toNat := by
  have hfb := frameBytes_of_frameLen hl
  unfold runCascade resultOf
  rw [ethDecode_spec (by rw [hfb]; simp)]
  by_cases h : len.toNat < 14
  · simp only [if_pos h]
    exact ⟨trivial, ethTruncResult_wf h, by simp [ethTruncResult]⟩
  simp only [if_neg h]
  have he := ethFits_at m.fb len h
  generalize ethRecordAt m.fb 0 len = e at he
  have hn := (ethFits_iff _ _).mp he
  simp only [l3Target_eq]
  by_cases ht : e.etype = Config.ETHERTYPE_IPV4
  swap
  · simp only [if_neg ht, if_pos ht]
    exact ⟨trivial, ethUnhandledResult_wf he ht, hn.2⟩
  simp only [if_pos ht, if_neg (not_not.mpr ht)]
  rw [ipv4Decode_spec (by rw [hfb]; omega)]
  by_cases h4 : e.pay.len.toNat < 20 ∨ e.pay.len.toNat < (ipv4HlenAt m.fb e.pay.off).toNat
      ∨ (ipv4HlenAt m.fb e.pay.off).toNat < 20
  · simp only [if_pos h4]
    exact ⟨trivial, ipv4TruncResult_wf he ht, hn.2⟩
  simp only [if_neg h4]
  have hi := ipv4Fits_at m.fb hn.1 hn.2 h4
  generalize ipv4RecordAt m.fb e.pay.off e.pay.len = i at hi
  have hm := (ipv4Fits_iff _ _).mp hi
  simp only [l4Target_eq]
  by_cases hp : i.proto = Config.IPPROTO_TCP
  swap
  · simp only [if_neg hp, if_pos hp]
    exact ⟨trivial, ipv4UnhandledResult_wf he ht hi hp, hm.2.2⟩
  simp only [if_pos hp, if_neg (not_not.mpr hp)]
  rw [tcpDecode_spec (by rw [hfb]; omega)]
  by_cases h6 : i.pay.len.toNat < 14 ∨ (tcpDoffAt m.fb i.pay.off).toNat < 20
      ∨ i.pay.len.toNat < (tcpDoffAt m.fb i.pay.off).toNat
  · simp only [if_pos h6]
    exact ⟨trivial, tcpTruncResult_wf he ht hi hp, hm.2.2⟩
  simp only [if_neg h6]
  have hx := tcpFits_at m.fb i hm.2.2 h6
  exact ⟨trivial, tcpDoneResult_wf he ht hi hp hx, ((tcpFits_iff _ _ _).mp hx).2.2⟩

/-- DISPATCH on a frame answers a next state: the result of the frame, written (44_dispatch.md R230, R244). -/
theorem dispatch_spec {s : State} {len : Half} (hl : s.here.frameLen = some len) :
    exec (.dispatch len) s = .next (writeResult (resultOf s.here.fb len) s) := by
  simp only [exec, execDispatch, (runCascade_spec hl).1]

end Sys2Proof.Machine
end

