-- ==== Sys2Proof/Laws/Turn.lean ====
section
/-! SUPPORT. What one turn of the schedule can do to the instance it is given to, and to every other. -/
namespace Sys2Proof.Machine

/-- The instance a turn is given to. -/
def Event.target : Event → Option Nat
  | .reset => none
  | .host i _ | .complete i | .advance i | .evaluate i _ _ => some i

/-- A primitive called by name never selects RESULT_WRITE or a decoder. -/
theorem decodeCall_isPrimitive {p : Primitive} {args : List Nat} {op : Instr} (h : decode (.call p args) = .ok op) :
    op.format = .primitive ∧ ∀ r, op ≠ .resultWrite r := by
  simp only [decode] at h
  unfold decodeCall at h
  split at h
  all_goals first
    | (simp only [decodeRead, bind, Except.bind, pure, Except.pure] at h
       repeat' (split at h)
       all_goals first
         | (simp at h; done)
         | (simp only [Except.ok.injEq] at h; subst h; exact ⟨rfl, fun _ => by simp⟩))
    | (simp at h)

/-- A primitive other than RESULT_WRITE that answers a next state changes only the value it returns
(40_boundary_and_extractors.md R151). -/
theorem primitive_returns {op : Instr} {s t : State} (hf : op.format = .primitive) (hr : ∀ r, op ≠ .resultWrite r)
    (h : exec op s = .next t) : ∃ v, t = returns v s := by
  cases op with
  | resultWrite r => exact absurd rfl (hr r)
  | check _ _ | slice _ _ _ | nibHi _ | nibLo _ | lenX4 _ | bit _ _ => exact ⟨_, (Host.Outcome.next.inj h).symm⟩
  | rdU8 b o => obtain ⟨a, -, rfl⟩ := answer_next (h : answer _ _ _ = _); exact ⟨_, rfl⟩
  | rdBe16 b o => obtain ⟨a, -, rfl⟩ := answer_next (h : answer _ _ _ = _); exact ⟨_, rfl⟩
  | rdBe32 b o => obtain ⟨a, -, rfl⟩ := answer_next (h : answer _ _ _ = _); exact ⟨_, rfl⟩
  | rdBytes b o n => cases n <;> (obtain ⟨a, -, rfl⟩ := answer_next (h : answer _ _ _ = _); exact ⟨_, rfl⟩)
  | dispatch _ | ethDecode _ _ | ipv4Decode _ _ | ethUnhandled _ | tcpDecode _ _ | ipv4Unhandled _ _ | ethTrunc _
  | ipv4Trunc _ | tcpTrunc _ _ | tcpDone _ _ _ | selL3 _ _ | selL4 _ _ => simp [Instr.format] at hf

/-- A turn given to instance `u.here` that answers `t`: the other instances stay; the result registers stay, and on a busy
instance BUSY, FB and FRAME_LEN too; or the transaction ends with one result written whole. -/
def TurnOn (u t : State) : Prop :=
  t.before = u.before ∧ t.after = u.after
    ∧ ((t.here.regs = u.here.regs
          ∧ (u.here.busy = true → t.here.busy = true ∧ t.here.fb = u.here.fb ∧ t.here.frameLen = u.here.frameLen))
        ∨ (u.here.busy = true ∧ ∃ r, t.here = (writeResult r u).here))

theorem TurnOn.refl (u : State) : TurnOn u u := ⟨rfl, rfl, .inl ⟨rfl, fun h => ⟨h, rfl, rfl⟩⟩⟩

theorem TurnOn.writeResult {u t : State} {r : Result} (hb : u.here.busy = true) (h : t = writeResult r u) : TurnOn u t := by
  subst h; exact ⟨rfl, rfl, .inr ⟨hb, r, rfl⟩⟩

theorem TurnOn.moves {u t : State} {v : Value} {c : Cascade} (h : t = moves v c u) : TurnOn u t := by
  subst h; exact ⟨rfl, rfl, .inl ⟨rfl, fun hb => ⟨hb, rfl, rfl⟩⟩⟩

theorem TurnOn.dispatch {u t : State} {len : Half} (hb : u.here.busy = true) (h : exec (.dispatch len) u = .next t) :
    TurnOn u t := by
  simp only [exec, execDispatch] at h
  split at h
  · simp at h
  · exact .writeResult hb (Host.Outcome.next.inj h).symm

/-- The operation a busy instance's cascade selects. -/
theorem TurnOn.selected {u t : State} {op : Instr} (hb : u.here.busy = true) (h : exec op u = .next t)
    (hp : op.format ≠ .primitive ∨ ∃ r, op = .resultWrite r) : TurnOn u t := by
  cases op with
  | dispatch len => exact .dispatch hb h
  | ethDecode b n =>
    rcases settle_next (h : settle _ _ _ = _) with ⟨l, -, rfl⟩ | ⟨a, -, rfl⟩ <;> exact .moves rfl
  | ipv4Decode b n =>
    rcases settle_next (h : settle _ _ _ = _) with ⟨l, -, rfl⟩ | ⟨a, -, rfl⟩ <;> exact .moves rfl
  | tcpDecode b n =>
    rcases settle_next (h : settle _ _ _ = _) with ⟨l, -, rfl⟩ | ⟨a, -, rfl⟩ <;> exact .moves rfl
  | ethUnhandled _ | ipv4Unhandled _ _ | ethTrunc _ | ipv4Trunc _ | tcpTrunc _ _ | tcpDone _ _ _ | selL3 _ _
  | selL4 _ _ => exact .moves (Host.Outcome.next.inj h).symm
  | resultWrite r => exact .writeResult hb (Host.Outcome.next.inj h).symm
  | check _ _ | slice _ _ _ | rdU8 _ _ | rdBe16 _ _ | rdBe32 _ _ | rdBytes _ _ _ | nibHi _ | nibLo _ | lenX4 _
  | bit _ _ => simp [Instr.format] at hp

/-- A cascade selects no primitive but RESULT_WRITE (30_encoding.md R125). -/
theorem decodeSelected_format {c : Cascade} {op : Instr} (h : decode (.selected c) = .ok op) :
    op.format ≠ .primitive ∨ ∃ r, op = .resultWrite r := by
  simp only [decode, decodeSelected, decodeEthertype, decodeIpproto, needEth, needEthIp] at h
  repeat' (split at h)
  all_goals first
    | (simp at h; done)
    | (simp only [Except.ok.injEq] at h; subst h; first | exact .inr ⟨_, rfl⟩ | exact .inl (by simp [Instr.format]))

theorem TurnOn.hostWriteFb {u t : State} {o : Nat} {bytes : List Byte} (h : hostWriteFb o bytes u = .next t) :
    TurnOn u t := by
  unfold Machine.hostWriteFb at h
  split at h; · simp at h
  split at h; · simp at h
  split at h; · simp at h
  rename_i hb _ _
  cases h
  exact ⟨rfl, rfl, .inl ⟨rfl, fun h => absurd h hb⟩⟩

theorem TurnOn.hostRead {u t : State} {r : ResultReg} (h : hostRead r u = .next t) : TurnOn u t := by
  unfold Machine.hostRead at h
  split at h; · simp at h
  split at h; · simp at h
  cases h; exact .refl u

theorem TurnOn.hostReadFb {u t : State} {o n : Nat} (h : hostReadFb o n u = .next t) : TurnOn u t := by
  unfold Machine.hostReadFb at h
  split at h; · simp at h
  cases h; exact .refl u

theorem TurnOn.hostAct {u t : State} {i : Nat} {a : HostAction} (h : hostAct i a u = .next t) : TurnOn u t := by
  cases a with
  | writeFb o bytes => exact .hostWriteFb h
  | read r => exact .hostRead h
  | readFb o n => exact .hostReadFb h
  | decode _ | readBusy | writeReg _ _ | writeBusy _ => cases h; exact .refl u
  | setLen l =>
    simp only [Machine.hostAct, hostSetLen] at h
    split at h; · simp at h
    split at h; · simp at h
    rename_i hb _
    cases h
    exact ⟨rfl, rfl, .inl ⟨rfl, fun h => absurd h hb⟩⟩
  | submit =>
    simp only [Machine.hostAct, hostSubmit] at h
    split at h; · simp at h
    split at h; · simp at h
    rename_i hb _ _ _
    cases h
    exact ⟨rfl, rfl, .inl ⟨rfl, fun h => absurd h hb⟩⟩
  | wait =>
    simp only [Machine.hostAct, hostWait] at h
    split at h
    · rename_i hb
      have h' : TurnOn (u.setEvents (.host i .wait :: u.events)) t := .dispatch hb h
      exact h'
    · cases h; exact .refl _
  | readLen =>
    simp only [Machine.hostAct, hostReadLen] at h
    split at h; · simp at h
    cases h; exact .refl u
  | readAt addr =>
    simp only [Machine.hostAct, hostReadAt] at h
    split at h; · exact .hostRead h
    split at h; · exact .hostReadFb h
    · simp at h
  | writeAt addr v =>
    simp only [Machine.hostAct, hostWriteAt] at h
    split at h; · cases h; exact .refl u
    split at h; · exact .hostWriteFb h
    · simp at h

/-- What a step that is no reset does (R34, R84, R244, R245, R281): one turn, of the instance it is given to. -/
theorem step_turn {s t : State} {e : Event} {rest : List Event} (he : s.events = e :: rest) (hr : e ≠ .reset)
    (h : step s = .next t) : ∃ i u, e.target = some i ∧ (s.setEvents rest).focus i = some u ∧ TurnOn u t := by
  simp only [step, nextTurn, he] at h
  generalize s.setEvents rest = s' at h
  have hon : ∀ i f, onInstance i f s' = .next t → ∃ u, s'.focus i = some u ∧ f u = .next t := by
    intro i f h
    unfold onInstance at h
    split at h
    · simp at h
    · exact ⟨_, ‹_›, h⟩
  cases e with
  | reset => exact absurd rfl hr
  | host i a => obtain ⟨u, hu, h⟩ := hon i _ h; exact ⟨i, u, rfl, hu, .hostAct h⟩
  | complete i =>
    obtain ⟨u, hu, h⟩ := hon i _ h
    refine ⟨i, u, rfl, hu, ?_⟩
    unfold completeTurn at h
    split at h
    · exact .dispatch ‹_› h
    · cases h; exact .refl _
  | advance i =>
    obtain ⟨u, hu, h⟩ := hon i _ h
    refine ⟨i, u, rfl, hu, ?_⟩
    unfold advanceTurn runWord at h
    split at h
    · split at h
      · simp at h
      · exact .selected ‹_› h (decodeSelected_format ‹_›)
    · cases h; exact .refl _
  | evaluate i p args =>
    obtain ⟨u, hu, h⟩ := hon i _ h
    refine ⟨i, u, rfl, hu, ?_⟩
    unfold runWord at h
    split at h
    · simp at h
    · obtain ⟨hf, hn⟩ := decodeCall_isPrimitive ‹_›
      obtain ⟨v, rfl⟩ := primitive_returns hf hn h
      exact ⟨rfl, rfl, .inl ⟨rfl, fun hb => ⟨hb, rfl, rfl⟩⟩⟩

/-- On an idle instance only SUBMIT raises BUSY (10_state.md R49). -/
theorem hostAct_raises_busy {u t : State} {i : Nat} {a : HostAction} (h : hostAct i a u = .next t)
    (hu : u.here.busy = false) (ht : t.here.busy = true) : a = .submit := by
  have stay : u.here.busy = t.here.busy → False := fun e => by rw [hu, ht] at e; cases e
  cases a with
  | submit => rfl
  | writeFb o bytes =>
    refine (stay ?_).elim
    simp only [hostAct, hostWriteFb] at h
    repeat' (split at h)
    all_goals first | (cases h; done) | (cases h; rfl)
  | writeAt addr v =>
    refine (stay ?_).elim
    simp only [hostAct, hostWriteAt, hostWriteFb] at h
    repeat' (split at h)
    all_goals first | (cases h; done) | (cases h; rfl)
  | readAt addr =>
    refine (stay ?_).elim
    simp only [hostAct, hostReadAt, hostRead, hostReadFb, hostObtains] at h
    repeat' (split at h)
    all_goals first | (cases h; done) | (cases h; rfl)
  | wait =>
    refine (stay ?_).elim
    simp only [hostAct, hostWait, hu] at h
    cases h; rfl
  | setLen _ | read _ | readLen | readFb _ _ =>
    refine (stay ?_).elim
    simp only [hostAct, hostSetLen, hostRead, hostReadLen, hostReadFb, hostObtains] at h
    repeat' (split at h)
    all_goals first | (cases h; done) | (cases h; rfl)
  | decode _ | readBusy | writeReg _ _ | writeBusy _ => cases h; exact (stay rfl).elim

/-- In no step does BUSY rise but in a SUBMIT on that instance (10_state.md R49). -/
theorem step_raises_busy {s t : State} {e : Event} {rest : List Event} (he : s.events = e :: rest)
    (h : step s = .next t) {i : Nat} {u : State} (hi : e.target = some i) (hf : (s.setEvents rest).focus i = some u)
    (hu : u.here.busy = false) (ht : t.here.busy = true) : e = .host i .submit := by
  have stay : u.here.busy = t.here.busy → False := fun e => by rw [hu, ht] at e; cases e
  simp only [step, nextTurn, he] at h
  cases e with
  | reset => cases hi
  | host j a =>
    cases hi
    simp only [takeTurn, onInstance, hf] at h
    rw [hostAct_raises_busy h hu ht]
  | complete j | advance j =>
    cases hi
    simp only [takeTurn, onInstance, hf, completeTurn, advanceTurn, hu] at h
    cases h; exact (stay rfl).elim
  | evaluate j p args =>
    cases hi
    simp only [takeTurn, onInstance, hf, runWord] at h
    split at h
    · cases h
    · obtain ⟨hp, hn⟩ := decodeCall_isPrimitive ‹_›
      obtain ⟨v, rfl⟩ := primitive_returns hp hn h
      exact (stay rfl).elim

end Sys2Proof.Machine
end

