-- ==== Sys2Proof/Tests/Slice0.lean ====
section
/-! SUPPORT. The model's own tests. Expected results are taken from spec/95_test_vectors.md (V<n>, PRG<n>, W<n>), from the
examples of the rules named, or worked out by hand from them. The witness_ theorems meet the hypotheses of the statements. -/
namespace Sys2Proof.Tests
open Sys2Proof Sys2Proof.Machine

/-! ### Frames (spec/95_test_vectors.md) -/

/-- `ETH0` with its ethertype bytes given. -/
def eth0 (hi lo : Byte) : List Byte :=
  [0x00, 0x11, 0x22, 0x33, 0x44, 0x55, 0x66, 0x77, 0x88, 0x99, 0xAA, 0xBB, hi, lo]

/-- `IP0` with byte 0 and the protocol given. -/
def ip0 (b0 proto : Byte) : List Byte :=
  [b0, 0x00, 0x00, 0x28, 0x00, 0x01, 0x00, 0x00, 0x40, proto, 0x00, 0x00, 0xC0, 0xA8, 0x00, 0x01, 0xC0, 0xA8, 0x00, 0x02]

/-- `TCP0(ww)`. -/
def tcp0 (w1 w0 : Byte) : List Byte :=
  [0x04, 0xD2, 0x00, 0x50, 0x00, 0x00, 0x00, 0x01, 0x00, 0x00, 0x00, 0x00, w1, w0, 0xFF, 0xFF, 0x00, 0x00, 0x00, 0x00]

/-- The frame of PRG1. -/
def prg1 : List Byte := eth0 0x08 0x00 ++ ip0 0x45 0x06 ++ tcp0 0x50 0x00

/-- One instance whose FB and FRAME_LEN hold a frame. -/
def holding (bytes : List Byte) : State :=
  State.reset.setHere
    ((Instance.reset.setFb (Memory.writeBytes [] 0 bytes)).setFrameLen (some (BitVec.ofNat 16 bytes.length)))

/-- The same after SUBMIT. -/
def accepted (bytes : List Byte) : State :=
  (holding bytes).setHere
    (((holding bytes).here.setBusy true).setCascade (Cascade.start (BitVec.ofNat 16 bytes.length)))

/-- The next state, if there is one. -/
def after (o : Host.Outcome State Fault Refusal) : Option State :=
  match o with
  | .next t => some t
  | _ => none

/-- What a transaction on a frame leaves in the result registers. -/
def outcome (bytes : List Byte) : Option ResultRegs :=
  (after (exec (.dispatch (BitVec.ofNat 16 bytes.length)) (holding bytes))).map fun t => t.here.regs

/-- STATUS and the final payload of a transaction on a frame. -/
def ending (bytes : List Byte) : Option (Half × Option Slice) := (outcome bytes).map fun r => (r.status, r.fin)

/-- What an operation returns on a state. -/
def returned (i : Instr) (s : State) : Option Value := (after (exec i s)).map fun t => t.here.ret

/-- Why an outcome is a stop. -/
def stop (o : Host.Outcome State Fault Refusal) : Option (Fault ⊕ Refusal) :=
  match o with
  | .next _ => none
  | .fault f => some (.inl f)
  | .refused r => some (.inr r)

/-! ### WellFormed refuses ill-formed terms, one for each check -/

theorem smoke_ethDecode_offset : (Instr.ethDecode 1 20).WellFormed = false := by decide
theorem smoke_ipv4Decode_offset : (Instr.ipv4Decode 15 20).WellFormed = false := by decide
theorem smoke_ipv4Decode_slice : (Instr.ipv4Decode 14 65530).WellFormed = false := by decide
theorem smoke_tcpDecode_low : (Instr.tcpDecode 33 20).WellFormed = false := by decide
theorem smoke_tcpDecode_high : (Instr.tcpDecode 75 20).WellFormed = false := by decide
theorem smoke_tcpDecode_slice : (Instr.tcpDecode 74 65500).WellFormed = false := by decide
theorem smoke_ethUnhandled_ethertype : (Instr.ethUnhandled (bareEth 0x0800 ⟨14, 0⟩)).WellFormed = false := by decide
theorem smoke_ethUnhandled_payload : (Instr.ethUnhandled (bareEth 0x0806 ⟨15, 0⟩)).WellFormed = false := by decide
theorem smoke_ipv4Unhandled_protocol :
    (Instr.ipv4Unhandled (bareEth 0x0800 ⟨14, 20⟩) { bareIpv4 6 ⟨34, 0⟩ with hlen := 20 }).WellFormed = false := by decide
theorem smoke_ipv4Unhandled_ethertype :
    (Instr.ipv4Unhandled (bareEth 0x0806 ⟨14, 20⟩) { bareIpv4 17 ⟨34, 0⟩ with hlen := 20 }).WellFormed = false := by decide
theorem smoke_ipv4Unhandled_headerLength :
    (Instr.ipv4Unhandled (bareEth 0x0800 ⟨14, 20⟩) { bareIpv4 17 ⟨30, 0⟩ with hlen := 16 }).WellFormed = false := by decide
theorem smoke_ethTrunc_length : (Instr.ethTrunc 14).WellFormed = false := by decide
theorem smoke_ipv4Trunc_ethertype : (Instr.ipv4Trunc (bareEth 0x0806 ⟨14, 0⟩)).WellFormed = false := by decide
theorem smoke_tcpTrunc_protocol :
    (Instr.tcpTrunc (bareEth 0x0800 ⟨14, 20⟩) { bareIpv4 17 ⟨34, 0⟩ with hlen := 20 }).WellFormed = false := by decide
theorem smoke_tcpDone_dataOffset :
    (Instr.tcpDone (bareEth 0x0800 ⟨14, 36⟩) { bareIpv4 6 ⟨34, 16⟩ with hlen := 20 }
      ⟨0, 0, 0, 0, 16, ⟨false, false, false, false, false, false⟩, ⟨50, 0⟩⟩).WellFormed = false := by decide
theorem smoke_sel_payload : (Instr.selL3 0x0800 ⟨65535, 1⟩).WellFormed = false := by decide
theorem smoke_selL4_payload : (Instr.selL4 6 ⟨65535, 1⟩).WellFormed = false := by decide
theorem smoke_slice : (Instr.slice 65000 600 20).WellFormed = false := by decide
theorem smoke_rdU8 : (Instr.rdU8 65535 0).WellFormed = false := by decide
theorem smoke_rdBe16 : (Instr.rdBe16 65534 0).WellFormed = false := by decide
theorem smoke_rdBe32 : (Instr.rdBe32 65532 0).WellFormed = false := by decide
theorem smoke_rdBytes_four : (Instr.rdBytes 65532 0 .four).WellFormed = false := by decide
theorem smoke_rdBytes_six : (Instr.rdBytes 65530 0 .six).WellFormed = false := by decide
theorem smoke_result_records :
    (Instr.resultWrite ⟨.ethTrunc, some (bareEth 0x0800 ⟨14, 0⟩), none, none, ⟨0, 13⟩⟩).WellFormed = false := by decide
theorem smoke_result_payload :
    (Instr.resultWrite ⟨.ethUnhandled, some (bareEth 0x0806 ⟨14, 5⟩), none, none, ⟨14, 6⟩⟩).WellFormed = false := by decide
theorem smoke_ipv4Header_ihl :
    (Ipv4Header.mk 4 4 0 (Vector.replicate 6 0) 0 0 0 0 (Vector.replicate 4 0) (Vector.replicate 4 0) []).WellFormed = false := by
  decide
theorem smoke_ipv4Header_options :
    (Ipv4Header.mk 4 6 0 (Vector.replicate 6 0) 0 0 0 0 (Vector.replicate 4 0) (Vector.replicate 4 0) [1]).WellFormed = false := by
  decide
theorem smoke_tcpHeader_dataOffset :
    (TcpHeader.mk 0 0 0 0 4 0 ⟨false, false, false, false, false, false⟩ [0, 0]).WellFormed = false := by decide
theorem smoke_tcpHeader_rest :
    (TcpHeader.mk 0 0 0 0 5 0 ⟨false, false, false, false, false, false⟩ [0, 0]).WellFormed = false := by decide

/-! ### Decoding: a word written out from the spec's encoding of each operation (30_encoding.md R115 to R118, R123, R125) -/

theorem test_decode_DISPATCH : decode (.submit 54) = .ok (.dispatch 54) := by decide
theorem test_decode_ETH_DECODE : decode (.selected ⟨54, none, none, none, .always⟩) = .ok (.ethDecode 0 54) := by decide
/-- The ethertype bytes `08 00`: 0000 1000 0000 0000. -/
theorem test_decode_IPV4_DECODE :
    decode (.selected ⟨54, none, none, none, .ethertype16 [0b00001000, 0b00000000] ⟨14, 40⟩⟩) = .ok (.ipv4Decode 14 40) := by
  decide
/-- V23: the swapped bytes `00 08`. -/
theorem test_decode_ETH_UNHANDLED :
    decode (.selected ⟨54, some (bareEth 8 ⟨14, 40⟩), none, none, .ethertype16 [0b00000000, 0b00001000] ⟨14, 40⟩⟩)
      = .ok (.ethUnhandled (bareEth 8 ⟨14, 40⟩)) := by decide
/-- The protocol byte `06`: 0000 0110. -/
theorem test_decode_TCP_DECODE :
    decode (.selected ⟨54, none, none, none, .ipproto8 [0b00000110] ⟨34, 20⟩⟩) = .ok (.tcpDecode 34 20) := by decide
/-- The protocol byte `11`. -/
theorem test_decode_IPV4_UNHANDLED :
    decode (.selected ⟨62, some (bareEth 0x0800 ⟨14, 48⟩), some (bareIpv4 17 ⟨34, 28⟩), none, .ipproto8 [0x11] ⟨34, 28⟩⟩)
      = .ok (.ipv4Unhandled (bareEth 0x0800 ⟨14, 48⟩) (bareIpv4 17 ⟨34, 28⟩)) := by decide
theorem test_decode_ETH_TRUNC : decode (.selected ⟨13, none, none, none, .raised .eth⟩) = .ok (.ethTrunc 13) := by decide
theorem test_decode_IPV4_TRUNC :
    decode (.selected ⟨14, some (bareEth 0x0800 ⟨14, 0⟩), none, none, .raised .ipv4⟩)
      = .ok (.ipv4Trunc (bareEth 0x0800 ⟨14, 0⟩)) := by decide
theorem test_decode_TCP_TRUNC :
    decode (.selected ⟨34, some (bareEth 0x0800 ⟨14, 20⟩), some (bareIpv4 6 ⟨34, 0⟩), none, .raised .tcp⟩)
      = .ok (.tcpTrunc (bareEth 0x0800 ⟨14, 20⟩) (bareIpv4 6 ⟨34, 0⟩)) := by decide
def someTcp : TcpRecord := ⟨1234, 80, 1, 0, 20, ⟨false, true, true, false, false, false⟩, ⟨54, 0⟩⟩
theorem test_decode_TCP_DONE :
    decode (.selected ⟨54, some (bareEth 0x0800 ⟨14, 40⟩), some (bareIpv4 6 ⟨34, 20⟩), some someTcp, .returned⟩)
      = .ok (.tcpDone (bareEth 0x0800 ⟨14, 40⟩) (bareIpv4 6 ⟨34, 20⟩) someTcp) := by decide
theorem test_decode_SEL_L3 :
    decode (.selected ⟨54, some (bareEth 0x0806 ⟨14, 40⟩), none, none, .ethTypeMux⟩) = .ok (.selL3 0x0806 ⟨14, 40⟩) := by
  decide
theorem test_decode_SEL_L4 :
    decode (.selected ⟨54, none, some (bareIpv4 17 ⟨34, 20⟩), none, .ipProtoMux⟩) = .ok (.selL4 17 ⟨34, 20⟩) := by decide
theorem test_decode_CHECK : decode (.call .check [13, 14]) = .ok (.check 13 14) := by decide
theorem test_decode_SLICE : decode (.call .slice [14, 40, 20]) = .ok (.slice 14 40 20) := by decide
theorem test_decode_RD_U8 : decode (.call .rdU8 [14, 9]) = .ok (.rdU8 14 9) := by decide
theorem test_decode_RD_BE16 : decode (.call .rdBe16 [0, 12]) = .ok (.rdBe16 0 12) := by decide
theorem test_decode_RD_BE32 : decode (.call .rdBe32 [34, 4]) = .ok (.rdBe32 34 4) := by decide
theorem test_decode_RD_BYTES : decode (.call .rdBytes [0, 6, 6]) = .ok (.rdBytes 0 6 .six) := by decide
theorem test_decode_NIB_HI : decode (.call .nibHi [0x45]) = .ok (.nibHi 0x45) := by decide
theorem test_decode_NIB_LO : decode (.call .nibLo [0x45]) = .ok (.nibLo 0x45) := by decide
theorem test_decode_LEN_X4 : decode (.call .lenX4 [5]) = .ok (.lenX4 5) := by decide
theorem test_decode_BIT : decode (.call .bit [0x5018, 4]) = .ok (.bit 0x5018 4) := by decide
theorem test_decode_RESULT_WRITE :
    decode (.selected ⟨13, none, none, none, .finished (ethTruncResult 13)⟩) = .ok (.resultWrite (ethTruncResult 13)) := by
  decide

/-! Rejections, by name. -/

theorem test_reject_short_ethertype :
    decode (.selected ⟨0, none, none, none, .ethertype16 [0x08] ⟨14, 0⟩⟩) = .error .discriminatorWidth := by decide
theorem test_reject_empty_protocol :
    decode (.selected ⟨0, none, none, none, .ipproto8 [] ⟨34, 0⟩⟩) = .error .discriminatorWidth := by decide
theorem test_reject_no_ethernet_record :
    decode (.selected ⟨0, none, none, none, .ethTypeMux⟩) = .error .noEthRecord := by decide
theorem test_reject_no_ipv4_record :
    decode (.selected ⟨0, some (bareEth 0x0800 ⟨14, 0⟩), none, none, .raised .tcp⟩) = .error .noIpv4Record := by decide
theorem test_reject_no_tcp_record :
    decode (.selected ⟨0, none, none, none, .returned⟩) = .error .noTcpRecord := by decide
theorem test_reject_operand_count : decode (.call .check [13]) = .error .operandCount := by decide
theorem test_reject_operand_width : decode (.call .nibHi [256]) = .error .operandWidth := by decide
theorem test_reject_address_width : decode (.call .rdBytes [0, 0, 5]) = .error .addressWidth := by decide
theorem test_reject_bit_number : decode (.call .bit [0x5018, 6]) = .error .bitNumber := by decide

/-! Words of the opcode table, read and run as the first operation after reset. -/

theorem test_tableWord_ipv4 : decodeTableWord 16 0x0800 = some (.ipv4Decode 0 0) := by decide
theorem test_tableWord_tcp : decodeTableWord 8 6 = some (.tcpDecode 0 0) := by decide
theorem test_fetch_ipv4 :
    step (State.reset.withFetchWord 16 0x0800)
      = exec (.ipv4Decode 0 0) ((State.reset.withFetchWord 16 0x0800).setEvents []) := by rfl
theorem test_fetch_tcp :
    step (State.reset.withFetchWord 8 6) = exec (.tcpDecode 0 0) ((State.reset.withFetchWord 8 6).setEvents []) := by rfl
theorem test_fetch_ipv4_truncated :
    (after (step (State.reset.withFetchWord 16 0x0800))).map (fun t => t.here.ret) = some (.truncated .ipv4) := by decide
theorem test_fetch_unhandled :
    (after (step (State.reset.withFetchWord 16 0x0806))).map (fun t => t.here.ret)
      = some (.result (ethUnhandledResult (bareEth 0x0806 ⟨0, 0⟩))) := by decide

/-! ### Primitives (V1 to V19) -/

theorem test_V1 : returned (.check 13 14) State.reset = some (.bool false) := by decide
theorem test_V2 : returned (.check 14 14) State.reset = some (.bool true) := by decide
theorem test_V6 : returned (.slice 14 40 20) State.reset = some (.slice ⟨34, 20⟩) := by decide
theorem test_V7 : returned (.slice 34 20 20) State.reset = some (.slice ⟨54, 0⟩) := by decide
theorem test_V8 : returned (.slice 14 19 20) State.reset = some .fail := by decide
/-- Log entry 25: the cut completes, with the length of R142 and an open offset. -/
theorem test_slice_offset_open :
    exec (.slice 65535 20 19) State.reset = .next (returns (.slice ⟨Config.SLICE_OFF_OPEN 65535 20 19, 1⟩) State.reset) := rfl
theorem test_V9 : returned (.rdU8 14 9) (holding prg1) = some (.u8 6) := by decide
theorem test_V10 : returned (.rdBe16 0 12) (holding prg1) = some (.u16 0x0800) := by decide
theorem test_V12a : returned (.rdBe16 34 0) (holding prg1) = some (.u16 1234) := by decide
theorem test_V12c : returned (.rdBe32 0 0) (holding [0x12, 0x34, 0x56, 0x78]) = some (.u32 305419896) := by decide
theorem test_V12e : returned (.rdBe32 0 1) (holding [0, 0x9A, 0xBC, 0xDE, 0xF0]) = some (.u32 2596069104) := by decide
theorem test_V12f : returned (.rdBytes 14 12 .four) (holding prg1) = some (.bytes [0xC0, 0xA8, 0x00, 0x01]) := by decide
theorem test_V12g :
    returned (.rdBytes 0 0 .six) (holding prg1) = some (.bytes [0x00, 0x11, 0x22, 0x33, 0x44, 0x55]) := by decide
theorem test_V13_hi : returned (.nibHi 0x45) State.reset = some (.u4 4) := by decide
theorem test_V13_lo : returned (.nibLo 0x45) State.reset = some (.u4 5) := by decide
theorem test_V15_4 : returned (.lenX4 4) State.reset = some (.u8 16) := by decide
theorem test_V15_15 : returned (.lenX4 15) State.reset = some (.u8 60) := by decide
theorem test_V16 : returned (.bit 0x5018 1) State.reset = some (.u1 0) := by decide
theorem test_V17 : returned (.bit 0x5018 4) State.reset = some (.u1 1) := by decide
theorem test_read_last_byte : returned (.rdU8 0 53) (holding prg1) = some (.u8 0) := by decide
theorem test_read_past_the_frame : stop (exec (.rdU8 0 54) (holding prg1)) = some (.inl .readOutsideFrame) := by decide

/-! ### Decoders (the examples of 41_ethernet.md R170, 42_ipv4.md R190, 43_tcp.md R210) -/

theorem test_ETH_DECODE_example :
    returned (.ethDecode 0 14) (holding (eth0 0x08 0x00))
      = some (.eth ⟨#v[0x00, 0x11, 0x22, 0x33, 0x44, 0x55], #v[0x66, 0x77, 0x88, 0x99, 0xAA, 0xBB], 0x0800, ⟨14, 0⟩⟩) := by
  decide
theorem test_IPV4_DECODE_example :
    returned (.ipv4Decode 14 20) (holding (eth0 0x08 0x00 ++ ip0 0x45 0x06))
      = some (.ipv4 ⟨4, 20, 64, 6, #v[0xC0, 0xA8, 0x00, 0x01], #v[0xC0, 0xA8, 0x00, 0x02], ⟨34, 0⟩⟩) := by decide
theorem test_TCP_DECODE_example :
    returned (.tcpDecode 34 20) (holding (eth0 0x08 0x00 ++ ip0 0x45 0x06 ++ tcp0 0x50 0x18)) = some (.tcp someTcp) := by
  decide

/-! ### Whole transactions -/

theorem test_V20 : ending ((eth0 0x08 0x00).take 13) = some (0x0101, some ⟨0, 13⟩) := by decide
theorem test_V21 : ending [] = some (0x0101, some ⟨0, 0⟩) := by decide
theorem test_V22 : ending (eth0 0x08 0x00) = some (0x0123, some ⟨14, 0⟩) := by decide
theorem test_V23 : ending (eth0 0x00 0x08 ++ ip0 0x45 0x06 ++ tcp0 0x50 0x00) = some (0x0013, some ⟨14, 40⟩) := by decide
theorem test_V30 : ending (eth0 0x08 0x00 ++ (ip0 0x45 0x06).take 19) = some (0x0123, some ⟨14, 19⟩) := by decide
theorem test_V31 : ending (eth0 0x08 0x00 ++ ip0 0x45 0x06) = some (0x0147, some ⟨34, 0⟩) := by decide
theorem test_V32 : ending (eth0 0x08 0x00 ++ ip0 0x44 0x06 ++ tcp0 0x50 0x00) = some (0x0123, some ⟨14, 40⟩) := by decide
theorem test_V34 : ending (eth0 0x08 0x00 ++ ip0 0x46 0x06) = some (0x0123, some ⟨14, 20⟩) := by decide
theorem test_V38 : ending (eth0 0x08 0x00 ++ ip0 0x65 0x06 ++ tcp0 0x50 0x00) = some (0x005F, some ⟨54, 0⟩) := by decide
theorem test_V40 : ending (eth0 0x08 0x00 ++ ip0 0x45 0x00) = some (0x0037, some ⟨34, 0⟩) := by decide
theorem test_V41 : ending (prg1 ++ [0, 0, 0, 0, 0, 0]) = some (0x005F, some ⟨54, 6⟩) := by decide
theorem test_V50 : ending (prg1.take 47) = some (0x0147, some ⟨34, 13⟩) := by decide
theorem test_V52 : ending (prg1.take 53) = some (0x0147, some ⟨34, 19⟩) := by decide
theorem test_V55 : ending (eth0 0x08 0x00 ++ ip0 0x45 0x06 ++ tcp0 0x40 0x00) = some (0x0147, some ⟨34, 20⟩) := by decide
theorem test_V57 : ending (eth0 0x08 0x00 ++ ip0 0x45 0x06 ++ tcp0 0xF0 0x00) = some (0x0147, some ⟨34, 20⟩) := by decide
theorem test_V61_flags :
    (outcome (eth0 0x08 0x00 ++ ip0 0x45 0x06 ++ tcp0 0x50 0x3F)).map (fun r => regValue r .TCP_FLAGS)
      = some (some (.u6 0x3F)) := by decide
theorem test_V62_flags :
    (outcome (eth0 0x08 0x00 ++ ip0 0x45 0x06 ++ tcp0 0x50 0xC0)).map (fun r => regValue r .TCP_FLAGS)
      = some (some (.u6 0x00)) := by decide

/-- PRG1, every register. -/
theorem test_PRG1 :
    outcome prg1 = some
      { status := 0x005F
        eth := some ⟨#v[0x00, 0x11, 0x22, 0x33, 0x44, 0x55], #v[0x66, 0x77, 0x88, 0x99, 0xAA, 0xBB], 0x0800, 14, 40⟩
        ip := some ⟨4, 20, 64, 6, #v[0xC0, 0xA8, 0x00, 0x01], #v[0xC0, 0xA8, 0x00, 0x02], 34, 20⟩
        tcp := some ⟨1234, 80, 1, 0, 20, 0, 54, 0⟩
        fin := some ⟨54, 0⟩ } := by decide

/-- PRG3, the TCP registers: options in both headers, SYN and ACK, three bytes of data. -/
theorem test_PRG3 :
    (outcome (eth0 0x08 0x00
        ++ [0x46, 0x00, 0x00, 0x33, 0x00, 0x02, 0x40, 0x00, 0x80, 0x06, 0x00, 0x00, 0x0A, 0x00, 0x00, 0x01, 0x0A, 0x00, 0x00,
            0x02, 0x01, 0x01, 0x01, 0x01]
        ++ [0xC3, 0x50, 0x01, 0xBB, 0x12, 0x34, 0x56, 0x78, 0x9A, 0xBC, 0xDE, 0xF0, 0x60, 0x12, 0x72, 0x10, 0x00, 0x00, 0x00,
            0x00, 0x02, 0x04, 0x05, 0xB4] ++ [0x41, 0x42, 0x43])).map (fun r => (r.status, r.tcp, r.fin))
      = some (0x005F, some ⟨50000, 443, 0x12345678, 0x9ABCDEF0, 24, 0x12, 62, 3⟩, some ⟨62, 3⟩) := by decide

/-! ### The host and the schedule -/

/-- A state with these turns still to come. -/
def scheduled (es : List Event) (s : State) : State := s.setEvents es

theorem test_submit_sets_busy :
    (after (step (scheduled [.host 0 .submit] (holding prg1)))).map (fun t => (t.here.busy, t.here.regs.status))
      = some (true, 0x0000) := by decide
theorem test_submit_without_length :
    stop (step (scheduled [.host 0 .submit] State.reset)) = some (.inr .frameLenNeverWritten) := by decide
theorem test_submit_while_busy :
    stop (step (scheduled [.host 0 .submit] (accepted prg1))) = some (.inr .submitWhileBusy) := by decide
theorem test_length_while_busy :
    stop (step (scheduled [.host 0 (.setLen 5)] (accepted prg1))) = some (.inr .hostWroteDuringTransaction) := by decide
theorem test_length_too_long :
    stop (step (scheduled [.host 0 (.setLen 65536)] State.reset)) = some (.inr .frameTooLong) := by decide
theorem test_write_past_the_buffer :
    stop (step (scheduled [.host 0 (.writeFb 65534 [1, 2])] State.reset)) = some (.inl .noSuchFbOffset) := by decide
theorem test_read_at_reset :
    stop (step (scheduled [.host 0 (.read .ETH_TYPE)] State.reset)) = some (.inl .readOfNoValue) := by decide
theorem test_status_at_reset :
    (after (step (scheduled [.host 0 (.read .STATUS)] State.reset))).map (fun t => t.hostData) = some (.u16 0x0000) := by
  decide
theorem test_complete :
    (after (step (scheduled [.complete 0] (accepted prg1)))).map (fun t => (t.here.busy, t.here.regs.status))
      = some (false, 0x005F) := by decide
theorem test_wait_completes_and_waits :
    (after (step (scheduled [.host 0 .wait] (accepted prg1)))).map (fun t => (t.here.busy, t.events))
      = some (false, [.host 0 .wait]) := by decide
theorem test_advance_decodes_ethernet :
    (after (step (scheduled [.advance 0] (accepted prg1)))).map (fun t => t.here.cascade.sel) = some .ethTypeMux := by decide
theorem test_reset_abandons :
    (after (step (scheduled [.reset] (accepted prg1)))).map (fun t => (t.here.busy, t.here.regs, t.here.fb.read 12))
      = some (false, ResultRegs.reset, 0x08) := by decide
theorem test_no_such_instance :
    stop (step (scheduled [.complete 1] State.reset)) = some (.inr .noSuchInstance) := by decide
theorem test_second_instance :
    (after (step (scheduled [.host 1 (.setLen 7)] (State.resetWith 1)))).map
      (fun t => t.instances.map fun m => m.frameLen) = some [none, some 7] := by decide

/-! ### Witnesses: states and operands that meet the hypotheses of each statement -/

theorem witness_DecodeOfEncodeIsTheOperation :
    (Instr.ipv4Decode 14 65521).WellFormed = true ∧ (Instr.tcpDecode 74 65461).WellFormed = true
    ∧ (Instr.resultWrite (ethTruncResult 13)).WellFormed = true ∧ (Instr.ethUnhandled (bareEth 0x0801 ⟨14, 0⟩)).WellFormed = true
    ∧ (Instr.tcpDone (bareEth 0x0800 ⟨14, 40⟩) { bareIpv4 6 ⟨34, 20⟩ with hlen := 20 } someTcp).WellFormed = true := by decide

theorem witness_OneRowAppliesToEveryDiscriminator :
    (⟨54, some (bareEth 0x0801 ⟨14, 40⟩), some (bareIpv4 6 ⟨34, 20⟩), none, .always⟩ : Cascade).eth
        = some (bareEth 0x0801 ⟨14, 40⟩)
    ∧ (⟨54, some (bareEth 0x0801 ⟨14, 40⟩), some (bareIpv4 6 ⟨34, 20⟩), none, .always⟩ : Cascade).ip
        = some (bareIpv4 6 ⟨34, 20⟩) := ⟨rfl, rfl⟩

/-- The headers of PRG1. -/
def prg1Eth : EthHeader := ⟨#v[0x00, 0x11, 0x22, 0x33, 0x44, 0x55], #v[0x66, 0x77, 0x88, 0x99, 0xAA, 0xBB], 0x0800⟩
def prg1Ip : Ipv4Header :=
  ⟨4, 5, 0x00, #v[0x00, 0x28, 0x00, 0x01, 0x00, 0x00], 0x40, 6, 0, 0, #v[0xC0, 0xA8, 0x00, 0x01], #v[0xC0, 0xA8, 0x00, 0x02], []⟩
def prg1Tcp : TcpHeader :=
  ⟨1234, 80, 1, 0, 5, 0, ⟨false, false, false, false, false, false⟩, [0xFF, 0xFF, 0x00, 0x00, 0x00, 0x00]⟩

/-- The wire encoder lays PRG1's frame out byte for byte. -/
theorem test_wire_PRG1 : prg1Eth.bytes ++ prg1Ip.bytes ++ prg1Tcp.bytes ++ [] = prg1 := by decide

theorem witness_WireFrameIsDecodedFieldByField :
    prg1Eth.etype = 0x0800 ∧ prg1Ip.proto = 6 ∧ prg1Ip.WellFormed = true ∧ prg1Tcp.WellFormed = true
    ∧ (holding prg1).here.holdsFrame (prg1Eth.bytes ++ prg1Ip.bytes ++ prg1Tcp.bytes ++ []) := by
  refine ⟨by decide, by decide, by decide, by decide, ?_⟩
  rw [test_wire_PRG1]
  exact ⟨by decide, by decide, by decide⟩

theorem witness_SliceCutsOrFails :
    ((19 : Half).toNat < (20 : Byte).toNat)
    ∧ ((20 : Byte).toNat ≤ (20 : Half).toNat ∧ (65515 : Half).toNat + (20 : Byte).toNat ≤ 65535)
    ∧ 65535 < (65516 : Half).toNat + (20 : Byte).toNat := by decide

/-- The last bytes of a frame: each read ends exactly at FRAME_LEN. -/
theorem witness_reads_at_the_end :
    (0 : Half).toNat + (53 : Byte).toNat + 1 ≤ (holding prg1).here.frameBytes
    ∧ (0 : Half).toNat + (52 : Byte).toNat + 2 ≤ (holding prg1).here.frameBytes
    ∧ (0 : Half).toNat + (50 : Byte).toNat + 4 ≤ (holding prg1).here.frameBytes
    ∧ (0 : Half).toNat + (48 : Byte).toNat + 6 ≤ (holding prg1).here.frameBytes := by decide

/-- One byte further each read is outside. -/
theorem witness_ReadsOutsideTheFrameStop :
    (holding prg1).here.frameBytes < (0 : Half).toNat + (54 : Byte).toNat + 1
    ∧ (holding prg1).here.frameBytes < (0 : Half).toNat + (53 : Byte).toNat + 2
    ∧ (holding prg1).here.frameBytes < (0 : Half).toNat + (51 : Byte).toNat + 4
    ∧ (holding prg1).here.frameBytes < (0 : Half).toNat + (49 : Byte).toNat + 6 := by decide

theorem witness_PrimitivesArePure :
    (Instr.check 13 14).format = .primitive ∧ (∀ r, Instr.check 13 14 ≠ .resultWrite r)
    ∧ ∃ t, exec (.check 13 14) (holding prg1) = .next t := ⟨rfl, by intro r; simp, _, rfl⟩

/-- Both clauses of each decoder, on slices that reach the end of the frame. -/
theorem witness_decoders :
    ((0 : Half).toNat + (13 : Half).toNat ≤ (holding prg1).here.frameBytes ∧ (13 : Half).toNat < 14)
    ∧ ((0 : Half).toNat + (54 : Half).toNat ≤ (holding prg1).here.frameBytes ∧ 14 ≤ (54 : Half).toNat)
    ∧ ((14 : Half).toNat + (19 : Half).toNat ≤ (holding prg1).here.frameBytes ∧ (19 : Half).toNat < 20)
    ∧ ((14 : Half).toNat + (20 : Half).toNat ≤ (holding prg1).here.frameBytes ∧ 20 ≤ (20 : Half).toNat
        ∧ ((holding prg1).here.fb.read 14).toNat % 16 * 4 = 20)
    ∧ ((34 : Half).toNat + (13 : Half).toNat ≤ (holding prg1).here.frameBytes ∧ (13 : Half).toNat < 14)
    ∧ ((34 : Half).toNat + (20 : Half).toNat ≤ (holding prg1).here.frameBytes
        ∧ ((holding prg1).here.fb.read 46).toNat / 16 * 4 = 20) := by decide

theorem witness_DecodersStopOnlyOutsideTheFrame :
    stop (exec (.ethDecode 50 14) (holding prg1)) = some (.inl .readOutsideFrame)
    ∧ stop (exec (.ipv4Decode 14 20) (holding (prg1.take 30))) = some (.inl .readOutsideFrame)
    ∧ stop (exec (.tcpDecode 50 20) (holding prg1)) = some (.inl .readOutsideFrame)
    ∧ stop (exec (.dispatch 54) (holding (eth0 8 0))) = some (.inl .readOutsideFrame) := by decide

theorem witness_selections :
    ({ Cascade.start 54 with eth := some (bareEth 0x0800 ⟨14, 40⟩), ip := some (bareIpv4 6 ⟨34, 20⟩), tcp := some someTcp }
      : Cascade).len = 54
    ∧ ({ Cascade.start 54 with eth := some (bareEth 0x0800 ⟨14, 40⟩), ip := some (bareIpv4 6 ⟨34, 20⟩), tcp := some someTcp }
      : Cascade).tcp = some someTcp
    ∧ (bareEth 0x0801 ⟨14, 40⟩).etype ≠ 0x0800 ∧ (bareIpv4 5 ⟨34, 20⟩).proto ≠ 6 := ⟨rfl, rfl, by decide, by decide⟩

theorem witness_dispatch_frameLen : (holding prg1).here.frameLen = some 54 := by decide

/-- Two machines that hold the same frame and differ in FB beyond it. -/
theorem witness_ResultDependsOnTheFrameAlone :
    (holding prg1).here.frameLen = some 54
    ∧ ((holding (prg1 ++ [1])).setHere ((holding (prg1 ++ [1])).here.setFrameLen (some 54))).here.frameLen = some 54
    ∧ ∀ a, a < 54 → (holding prg1).here.fb.read a = (holding (prg1 ++ [1])).here.fb.read a := by decide

/-- Two frames that differ in IPv4 byte 1 and in bits 11..6 of the offset/flags word. -/
def undecodedTwin : List Byte :=
  eth0 0x08 0x00 ++ (ip0 0x45 0x06).set 1 0xFF ++ tcp0 0x5F 0xC0

theorem witness_UndecodedBitsChangeNoResult :
    (holding prg1).here.frameLen = some 54 ∧ (holding undecodedTwin).here.frameLen = some 54
    ∧ 34 ≤ (54 : Half).toNat ∧ ((holding prg1).here.fb.read 12).toNat = 8 ∧ ((holding prg1).here.fb.read 13).toNat = 0
    ∧ ((holding prg1).here.fb.read 14).toNat % 16 * 4 = 20 ∧ ((holding prg1).here.fb.read 23).toNat = 6
    ∧ 34 + 14 ≤ (54 : Half).toNat
    ∧ (∀ a, a < 54 → a ≤ 14 ∨ a = 22 ∨ a = 23 ∨ (26 ≤ a ∧ a ≤ 33) ∨ (34 ≤ a ∧ a < 34 + 12) →
        (holding prg1).here.fb.read a = (holding undecodedTwin).here.fb.read a)
    ∧ ((holding prg1).here.fb.read 46).toNat / 16 = ((holding undecodedTwin).here.fb.read 46).toNat / 16
    ∧ ((holding prg1).here.fb.read 47).toNat % 64 = ((holding undecodedTwin).here.fb.read 47).toNat % 64
    ∧ (holding prg1).here.fb.read 47 ≠ (holding undecodedTwin).here.fb.read 47 := by decide

/-- Frames with IHL 1: no legal IPv4 header, so they have to agree on no byte after the 14th, and differ from there on. -/
theorem witness_UndecodedBits_shortHeader :
    (holding (eth0 8 0 ++ ip0 0x41 0x06)).here.frameLen = some 34
    ∧ ((holding (eth0 8 0 ++ ip0 0x41 0x06)).here.fb.read 14).toNat % 16 * 4 < 20
    ∧ (∀ a, a ≤ 14 → (holding (eth0 8 0 ++ ip0 0x41 0x06)).here.fb.read a
        = (holding (eth0 8 0 ++ 0x41 :: List.replicate 19 0x06)).here.fb.read a) := by decide

theorem witness_ResetLeavesTheResetValues : Instance.reset ∈ (State.resetWith 3).instances := by decide

theorem witness_reset_turn :
    (scheduled [.reset] (accepted prg1)).events = .reset :: []
    ∧ (scheduled [.reset] (accepted prg1)).instances[0]? = some (accepted prg1).here := ⟨rfl, rfl⟩

theorem witness_SubmitStartsTheCascade :
    (scheduled [.host 0 .submit] (holding prg1)).focus 0 = some (scheduled [.host 0 .submit] (holding prg1))
    ∧ (holding prg1).here.busy = false ∧ (holding prg1).here.frameLen = some 54 := ⟨rfl, rfl, by decide⟩

/-- Each broken duty, at its boundary: a length of 65536, no length, and a busy instance. -/
theorem witness_BrokenHostDutiesAreRefused :
    (scheduled [.host 0 (.setLen 65536)] State.reset).focus 0 = some (scheduled [.host 0 (.setLen 65536)] State.reset)
    ∧ State.reset.here.busy = false ∧ State.reset.here.frameLen = none ∧ 65535 < 65536
    ∧ 65535 < (List.replicate 65536 (0 : Byte)).length
    ∧ (accepted prg1).here.busy = true := ⟨rfl, rfl, rfl, by decide, by rw [List.length_replicate]; decide, rfl⟩

theorem reset_inv : State.reset.Inv := by
  intro m hm
  obtain rfl : m = State.reset.here := by simpa [State.instances, State.reset, State.resetWith] using hm
  exact ⟨by decide, .inl rfl, fun _ => rfl, fun h => absurd h (by decide)⟩

/-- The registers at the ends of each record's range, on a reset instance. -/
theorem witness_ReadOfAnAbsentRecordFaults :
    (scheduled [.host 0 (.read .ETH_DST)] State.reset).Inv
    ∧ (scheduled [.host 0 (.read .ETH_DST)] State.reset).focus 0 = some (scheduled [.host 0 (.read .ETH_DST)] State.reset)
    ∧ statusEthV State.reset.here.regs.status = false ∧ statusIpV State.reset.here.regs.status = false
    ∧ statusTcpV State.reset.here.regs.status = false
    ∧ [regNumber .ETH_DST, regNumber .ETH_PAY_LEN, regNumber .IP_VER, regNumber .IP_PAY_LEN, regNumber .TCP_SPORT,
        regNumber .TCP_PAY_LEN] = [1, 5, 6, 13, 14, 21] :=
  ⟨reset_inv, rfl, by decide, by decide, by decide, by decide⟩

theorem witness_HostReads :
    regValue State.reset.here.regs .STATUS = some (.u16 0) ∧ statusLegal State.reset.here.regs.status = true
    ∧ regValue State.reset.here.regs .ETH_DST = none
    ∧ statusLegal ((State.reset.here.setRegs { ResultRegs.reset with status := 0x0060 }).regs.status) = false := by decide

/-- A successful write of FRAME_LEN, and each form of a host read. -/
theorem witness_HostReadsRequestRegistersAndFb :
    (after (step (scheduled [.host 0 (.setLen 54)] State.reset))).isSome = true
    ∧ (holding prg1).here.frameLen = some 54 ∧ State.reset.here.frameLen = none
    ∧ 65534 + 1 ≤ 65535 ∧ 65535 < 65534 + 2 := by decide

theorem witness_HostWritesStoreWhatTheySay :
    (scheduled [.host 0 (.writeFb 65534 [1])] State.reset).focus 0
        = some (scheduled [.host 0 (.writeFb 65534 [1])] State.reset)
    ∧ State.reset.here.busy = false ∧ State.reset.here.fb.wf = true ∧ 65534 + [1].length ≤ 65535
    ∧ 65535 < 65534 + [1, 2].length ∧ 65535 ≤ 65535 := ⟨rfl, rfl, rfl, by decide, by decide, by decide⟩

/-! The invariant: at reset, and in flight. -/

theorem holding_inv : (holding prg1).Inv := by
  intro m hm
  obtain rfl : m = (holding prg1).here := by simpa [State.instances, holding, State.reset, State.resetWith] using hm
  exact ⟨by decide, .inl rfl, fun _ => rfl, fun h => absurd h (by decide)⟩

theorem accepted_inv : (accepted prg1).Inv := by
  intro m hm
  obtain rfl : m = (accepted prg1).here := by
    simpa [State.instances, accepted, holding, State.reset, State.resetWith] using hm
  exact ⟨by decide, .inl rfl, fun h => absurd h (by decide), fun _ => ⟨by decide, by decide⟩⟩

theorem witness_WaitLetsTheRequestComplete :
    (scheduled [.host 0 .wait] (accepted prg1)).Inv
    ∧ (scheduled [.host 0 .wait] (accepted prg1)).focus 0 = some (scheduled [.host 0 .wait] (accepted prg1))
    ∧ (accepted prg1).here.busy = true ∧ (holding prg1).here.busy = false := ⟨accepted_inv, rfl, rfl, rfl⟩

theorem witness_StepRunsTheDecodedOperation :
    (scheduled [.advance 0] (accepted prg1)).focus 0 = some (scheduled [.advance 0] (accepted prg1))
    ∧ (accepted prg1).here.busy = true
    ∧ decode (.selected (accepted prg1).here.cascade) = .ok (.ethDecode 0 54)
    ∧ decode (.call .check [14, 14]) = .ok (.check 14 14) := ⟨rfl, rfl, by decide, by decide⟩

theorem witness_IdleInstanceWaits :
    (scheduled [.advance 0] (holding prg1)).focus 0 = some (scheduled [.advance 0] (holding prg1))
    ∧ (holding prg1).here.busy = false := ⟨rfl, rfl⟩

theorem witness_OperationsChangeOnlyTheirOwn :
    (after (exec (.ethDecode 0 54) (accepted prg1))).isSome = true
    ∧ (after (exec (.dispatch 54) (accepted prg1))).isSome = true
    ∧ (∀ len, Instr.ethDecode 0 54 ≠ .dispatch len) ∧ (∀ r, Instr.ethDecode 0 54 ≠ .resultWrite r) :=
  ⟨by decide, by decide, by intro len; simp, by intro r; simp⟩

/-- A step of a busy instance, and the step that completes its transaction. -/
theorem witness_steps_of_a_transaction :
    (scheduled [.complete 0] (accepted prg1)).Inv
    ∧ (scheduled [.complete 0] (accepted prg1)).events = .complete 0 :: [] ∧ Event.complete 0 ≠ .reset
    ∧ (scheduled [.complete 0] (accepted prg1)).instances[0]? = some (accepted prg1).here
    ∧ (accepted prg1).here.busy = true
    ∧ (after (step (scheduled [.complete 0] (accepted prg1)))).map
        (fun t => t.instances.map fun m => (m.busy, statusDone m.regs.status)) = some [(false, true)] :=
  ⟨accepted_inv, rfl, by decide, rfl, rfl, by decide⟩

/-- BUSY rises in a SUBMIT and falls in the step that completes the request. -/
theorem witness_BusyIsOneFromAcceptanceToCompletion :
    (scheduled [.host 0 .submit] (holding prg1)).events = .host 0 .submit :: [] ∧ Event.host 0 .submit ≠ .reset
    ∧ (scheduled [.host 0 .submit] (holding prg1)).instances[0]? = some (holding prg1).here
    ∧ (holding prg1).here.busy = false
    ∧ (after (step (scheduled [.host 0 .submit] (holding prg1)))).map (fun t => t.instances.map fun m => m.busy)
        = some [true]
    ∧ (accepted prg1).here.busy = true
    ∧ (after (step (scheduled [.complete 0] (accepted prg1)))).map (fun t => t.instances.map fun m => m.busy)
        = some [false]
    ∧ (after (step (scheduled [.host 0 (.writeBusy false)] (accepted prg1)))).map (fun t => t.instances)
        = some (accepted prg1).instances
    ∧ (after (step (scheduled [.host 0 .readBusy] (accepted prg1)))).map (fun t => t.hostData) = some (.u1 1) :=
  ⟨rfl, by decide, rfl, rfl, by decide, rfl, by decide, by decide, by decide⟩

theorem witness_InstancesShareNoState :
    (scheduled [.host 1 (.setLen 7)] (State.resetWith 1)).events = .host 1 (.setLen 7) :: [] ∧ (1 : Nat) ≠ 0
    ∧ (after (step (scheduled [.host 1 (.setLen 7)] (State.resetWith 1)))).isSome = true := ⟨rfl, by decide, by decide⟩

theorem witness_EveryStepKeepsTheInvariant :
    (scheduled [.advance 0] (accepted prg1)).Inv
    ∧ (after (step (scheduled [.advance 0] (accepted prg1)))).isSome = true := ⟨accepted_inv, by decide⟩

theorem witness_NoRunReadsOutsideTheFrame :
    (scheduled [.advance 0] (accepted prg1)).Inv ∧ (Event.advance 0).ofRun = true
    ∧ (scheduled [.host 0 (.read .ETH_DST)] (holding prg1)).Inv ∧ (Event.host 0 (.read .ETH_DST)).ofRun = true
    ∧ stop (step (scheduled [.host 0 (.read .ETH_DST)] (holding prg1))) = some (.inl .readOfNoValue) :=
  ⟨accepted_inv, rfl, holding_inv, rfl, by decide⟩

/-- A machine that holds the result of PRG1: the result is legal, whole, and has all three records. -/
def finished1 : State := (holding prg1).setHere ((holding prg1).here.setRegs (resultRegs
  (tcpDoneResult ⟨prg1Eth.dst, prg1Eth.src, 0x0800, ⟨14, 40⟩⟩ ⟨4, 20, 64, 6, prg1Ip.src, prg1Ip.dst, ⟨34, 20⟩⟩ someTcp)))

theorem witness_ResultRegistersHoldLegalValues :
    finished1.Inv ∧ finished1.here ∈ finished1.instances ∧ finished1.here.regs.fin = some ⟨54, 0⟩
    ∧ finished1.here.regs.eth.isSome = true ∧ finished1.here.regs.ip.isSome = true
    ∧ finished1.here.regs.tcp.isSome = true := by
  refine ⟨?_, ?_, rfl, rfl, rfl, rfl⟩
  · intro m hm
    obtain rfl : m = finished1.here := by
      simpa [State.instances, finished1, holding, State.reset, State.resetWith] using hm
    exact ⟨by decide, .inr ⟨_, by decide, rfl⟩, fun _ => rfl, fun h => absurd h (by decide)⟩
  · simp [State.instances]

theorem witness_EveryTransactionCompletes :
    (scheduled (List.replicate 7 (.advance 0)) (accepted prg1)).Inv ∧ (accepted prg1).here.busy = true
    ∧ (scheduled (List.replicate 7 (.advance 0)) (accepted prg1)).events
        = List.replicate 7 (.advance (accepted prg1).before.length) ++ [] := ⟨accepted_inv, rfl, rfl⟩

theorem witness_OneStepEqualsTheSingleOperations :
    (accepted prg1).here.busy = true ∧ (accepted prg1).here.frameLen = some 54
    ∧ (accepted prg1).here.cascade = Cascade.start 54 := by decide

end Sys2Proof.Tests
end

section
/-! SUPPORT. The extractors and the byte order as arithmetic (10_state.md R40 to R43,
40_boundary_and_extractors.md R147 to R150). -/
namespace Sys2Proof

/-- A byte appended below a value: the value times 256 and the byte. -/
theorem toNat_append_byte {w : Nat} (x : BitVec w) (y : Byte) : (x ++ y).toNat = 256 * x.toNat + y.toNat := by
  rw [BitVec.toNat_append, ← Nat.shiftLeft_add_eq_or_of_lt y.isLt, Nat.shiftLeft_eq, Nat.mul_comm]

/-- 32-bit assembly as a number. -/
theorem be32_toNat (b0 b1 b2 b3 : Byte) :
    (be32 b0 b1 b2 b3).toNat = 16777216 * b0.toNat + 65536 * b1.toNat + 256 * b2.toNat + b3.toNat := by
  simp only [be32, toNat_append_byte]
  omega

end Sys2Proof

namespace Sys2Proof.Machine

/-- The host's view of a MAC address, element 0 most significant (10_state.md R40). -/
theorem macNumber_toNat (a : Vector Byte 6) :
    (macNumber a).toNat
      = 256 * (256 * (256 * (256 * (256 * a[0].toNat + a[1].toNat) + a[2].toNat) + a[3].toNat) + a[4].toNat)
          + a[5].toNat := by
  simp only [macNumber, toNat_append_byte]

/-- The host's view of an IPv4 address, element 0 most significant (10_state.md R41). -/
theorem ipv4Number_toNat (a : Vector Byte 4) :
    (ipv4Number a).toNat = 256 * (256 * (256 * a[0].toNat + a[1].toNat) + a[2].toNat) + a[3].toNat := by
  simp only [ipv4Number, toNat_append_byte]

theorem nibbleLo_toNat (x : Byte) : (nibbleLo x).toNat = x.toNat % 16 := by
  simp [nibbleLo, Config.NIB_MASK, Nat.and_two_pow_sub_one_eq_mod _ 4]

theorem nibbleHi_toNat (x : Byte) : (nibbleHi x).toNat = x.toNat / 16 := by
  have hx := x.isLt
  simp [nibbleHi, Config.NIB_MASK, Config.IP_VER_SHIFT, Nat.and_two_pow_sub_one_eq_mod _ 4, Nat.shiftRight_eq_div_pow]
  omega

/-- The data offset is the upper half of the first byte of the offset/flags word (30_encoding.md R105). -/
theorem dataOffset_be16_toNat (hi lo : Byte) : (dataOffset (be16 hi lo)).toNat = hi.toNat / 16 := by
  have hhi := hi.isLt
  have hlo := lo.isLt
  simp [dataOffset, Config.TCP_DOFF_SHIFT, be16_toNat, Nat.shiftRight_eq_div_pow]
  omega

/-! ### The TCP flags -/

/-- 40_boundary_and_extractors.md R149. -/
theorem bitOf_eq_ofBool (w : Half) (n : Fin 6) : bitOf w n = BitVec.ofBool (w.getLsbD n) := by
  apply BitVec.eq_of_getLsbD_eq
  intro i hi
  obtain rfl : i = 0 := by omega
  simp [bitOf]

theorem bitOf_eq_one (w : Half) (n : Fin 6) : decide (bitOf w n = 1) = w.getLsbD n := by
  rw [bitOf_eq_ofBool]
  cases w.getLsbD n <;> decide

/-- Each flag is the bit of the word that R43 names. -/
theorem flagsOf_eq (w : Half) :
    flagsOf w = ⟨w.getLsbD 5, w.getLsbD 4, w.getLsbD 3, w.getLsbD 2, w.getLsbD 1, w.getLsbD 0⟩ := by
  simp only [flagsOf, bitOf_eq_one]
  rfl

/-- Packing the flags of a word gives back its bits 5 to 0 (10_state.md R43). -/
theorem packFlags_flagsOf (w : Half) : packFlags (flagsOf w) = (w &&& Config.TCP_FLAGS_MASK).truncate 6 := by
  apply BitVec.eq_of_getLsbD_eq
  intro i hi
  rw [flagsOf_eq]
  simp only [packFlags, BitVec.getLsbD_append]
  interval_cases i <;> simp [Config.TCP_FLAGS_MASK]

/-- The packed flags are the low six bits of the second byte of the offset/flags word. -/
theorem packFlags_be16_toNat (hi lo : Byte) : (packFlags (flagsOf (be16 hi lo))).toNat = lo.toNat % 64 := by
  rw [packFlags_flagsOf]
  simp [Config.TCP_FLAGS_MASK, Nat.and_two_pow_sub_one_eq_mod _ 6, be16_toNat]
  omega

/-- Settles O20: each flag is read from its bit, and packing puts it back there. -/
theorem tcpFlagsKeepTheirBitPositions : Obligations.TcpFlagsKeepTheirBitPositions := by
  intro w
  refine ⟨packFlags_flagsOf w, ?_⟩
  rw [flagsOf_eq]
  exact ⟨rfl, rfl, rfl, rfl, rfl, rfl⟩

end Sys2Proof.Machine
end

section
/-! SUPPORT. The fields of STATUS (10_state.md R35), and when a result register holds no value (R45, R53). -/
namespace Sys2Proof.Machine

section
variable (done ethV ipV tcpV : Bool) (term : BitVec 3) (cause : BitVec 4)

@[simp] theorem statusDone_statusWord : statusDone (statusWord done ethV ipV tcpV term cause) = done := by
  simp only [statusDone, statusWord, BitVec.getLsbD_append]
  simp

@[simp] theorem statusEthV_statusWord : statusEthV (statusWord done ethV ipV tcpV term cause) = ethV := by
  simp only [statusEthV, statusWord, BitVec.getLsbD_append]
  simp

@[simp] theorem statusIpV_statusWord : statusIpV (statusWord done ethV ipV tcpV term cause) = ipV := by
  simp only [statusIpV, statusWord, BitVec.getLsbD_append]
  simp

@[simp] theorem statusTcpV_statusWord : statusTcpV (statusWord done ethV ipV tcpV term cause) = tcpV := by
  simp only [statusTcpV, statusWord, BitVec.getLsbD_append]
  simp

@[simp] theorem statusTerm_statusWord : statusTerm (statusWord done ethV ipV tcpV term cause) = term := by
  apply BitVec.eq_of_getLsbD_eq
  intro j hj
  simp only [statusTerm, statusWord, BitVec.getLsbD_extractLsb', BitVec.getLsbD_append]
  interval_cases j <;> simp

@[simp] theorem statusCause_statusWord : statusCause (statusWord done ethV ipV tcpV term cause) = cause := by
  apply BitVec.eq_of_getLsbD_eq
  intro j hj
  simp only [statusCause, statusWord, BitVec.getLsbD_extractLsb', BitVec.getLsbD_append]
  interval_cases j <;> simp

end

/-! ### STATUS of a written result -/

@[simp] theorem resultRegs_done (r : Result) : statusDone (resultRegs r).status = true := by simp [resultRegs]

@[simp] theorem resultRegs_ethV (r : Result) : statusEthV (resultRegs r).status = (resultRegs r).eth.isSome := by
  simp [resultRegs]

@[simp] theorem resultRegs_ipV (r : Result) : statusIpV (resultRegs r).status = (resultRegs r).ip.isSome := by
  simp [resultRegs]

@[simp] theorem resultRegs_tcpV (r : Result) : statusTcpV (resultRegs r).status = (resultRegs r).tcp.isSome := by
  simp [resultRegs]

@[simp] theorem resultRegs_term (r : Result) : statusTerm (resultRegs r).status = termCode r.term := by
  simp [resultRegs]

@[simp] theorem resultRegs_cause (r : Result) : statusCause (resultRegs r).status = termCause r.term := by
  simp [resultRegs]

/-! ### STATUS in the six terminal states (44_dispatch.md R232, R234 to R238) -/

theorem ethTruncResult_status (len : Half) : (resultRegs (ethTruncResult len)).status = 0x0101 := by
  simp [resultRegs, ethTruncResult, termCode, termCause, statusWord]

theorem ethUnhandledResult_status (e : EthRecord) : (resultRegs (ethUnhandledResult e)).status = 0x0013 := by
  simp [resultRegs, ethUnhandledResult, termCode, termCause, statusWord]

theorem ipv4TruncResult_status (e : EthRecord) : (resultRegs (ipv4TruncResult e)).status = 0x0123 := by
  simp [resultRegs, ipv4TruncResult, termCode, termCause, statusWord]

theorem ipv4UnhandledResult_status (e : EthRecord) (i : Ipv4Record) :
    (resultRegs (ipv4UnhandledResult e i)).status = 0x0037 := by
  simp [resultRegs, ipv4UnhandledResult, termCode, termCause, statusWord]

theorem tcpTruncResult_status (e : EthRecord) (i : Ipv4Record) : (resultRegs (tcpTruncResult e i)).status = 0x0147 := by
  simp [resultRegs, tcpTruncResult, termCode, termCause, statusWord]

theorem tcpDoneResult_status (e : EthRecord) (i : Ipv4Record) (t : TcpRecord) :
    (resultRegs (tcpDoneResult e i t)).status = 0x005F := by
  simp [resultRegs, tcpDoneResult, termCode, termCause, statusWord]

/-! ### When a register holds no value -/

/-- In legal result registers the valid bits announce exactly the records that are there (10_state.md R38, R45). -/
theorem legal_validBits {g : ResultRegs} (h : g.legal) :
    statusEthV g.status = g.eth.isSome ∧ statusIpV g.status = g.ip.isSome ∧ statusTcpV g.status = g.tcp.isSome := by
  rcases h with rfl | ⟨r, -, rfl⟩
  · decide
  · exact ⟨resultRegs_ethV r, resultRegs_ipV r, resultRegs_tcpV r⟩

/-- A register of a layer whose record is absent holds no value (10_state.md R33, R45). -/
theorem regValue_absent {g : ResultRegs} {r : ResultReg}
    (h : (1 ≤ regNumber r ∧ regNumber r ≤ 5 ∧ g.eth = none) ∨ (6 ≤ regNumber r ∧ regNumber r ≤ 13 ∧ g.ip = none)
      ∨ (14 ≤ regNumber r ∧ regNumber r ≤ 21 ∧ g.tcp = none)) : regValue g r = none := by
  cases r with
  | STATUS | FIN_PAY_OFF | FIN_PAY_LEN => simp [regNumber] at h
  | ETH_DST | ETH_SRC | ETH_TYPE | ETH_PAY_OFF | ETH_PAY_LEN =>
    have hg : g.eth = none := by simpa [regNumber] using h
    simp [regValue, hg]
  | IP_VER | IP_HLEN | IP_TTL | IP_PROTO | IP_SRC | IP_DST | IP_PAY_OFF | IP_PAY_LEN =>
    have hg : g.ip = none := by simpa [regNumber] using h
    simp [regValue, hg]
  | TCP_SPORT | TCP_DPORT | TCP_SEQ | TCP_ACK | TCP_DOFF | TCP_FLAGS | TCP_PAY_OFF | TCP_PAY_LEN =>
    have hg : g.tcp = none := by simpa [regNumber] using h
    simp [regValue, hg]

/-- After reset no register but STATUS holds a value (10_state.md R53). -/
theorem regValue_reset {r : ResultReg} (h : r ≠ .STATUS) : regValue ResultRegs.reset r = none := by
  cases r with
  | STATUS => exact absurd rfl h
  | _ => rfl

/-- Every instance of the reset state is in the reset state, whatever their number. -/
theorem mem_resetWith {n : Nat} {m : Instance} (h : m ∈ (State.resetWith n).instances) : m = Instance.reset := by
  simp only [State.resetWith, State.instances, List.nil_append, List.mem_cons, List.mem_replicate] at h
  exact h.elim id And.right

/-- Settles O38: every instance is `Instance.reset`. -/
theorem resetLeavesTheResetValues : Obligations.ResetLeavesTheResetValues := by
  intro n m hm
  obtain rfl := mem_resetWith hm
  exact ⟨rfl, rfl, rfl, fun r hr => regValue_reset hr⟩

/-- Settles O31: TERM and CAUSE are those of the result's terminal state, of which there are six. -/
theorem causeFollowsTerm : Obligations.CauseFollowsTerm := by
  intro L s hl
  refine ⟨_, dispatch_spec hl, ?_⟩
  simp only [writeResult_regs, resultRegs_term, resultRegs_cause]
  cases (resultOf s.here.fb L).term <;> decide

end Sys2Proof.Machine
end

section
/-! SUPPORT. How a frame ends: the six terminal states with the conditions on its length and bytes that lead to each
(10_state.md R36, 44_dispatch.md R241, 60_exceptions.md R260), and the records each of them has. -/
namespace Sys2Proof.Machine

/-- A descriptor is known by its two numbers. -/
theorem eq_sliceOf {p : Slice} {off len : Nat} (h : p.off.toNat = off ∧ p.len.toNat = len) : p = sliceOf off len := by
  obtain ⟨rfl, rfl⟩ := h
  simp [sliceOf]

/-! ### The header lengths, as numbers -/

theorem ipv4HlenAt_toNat (fb : Memory) (b : Half) :
    (ipv4HlenAt fb b).toNat = (fb.read b.toNat).toNat % 16 * 4 := by
  rw [ipv4HlenAt, lengthX4_toNat, nibbleLo_toNat]

theorem tcpDoffAt_toNat (fb : Memory) (b : Half) :
    (tcpDoffAt fb b).toNat = (fb.read (b.toNat + 12)).toNat / 16 * 4 := by
  rw [tcpDoffAt, lengthX4_toNat, tcpWordAt, dataOffset_be16_toNat]

/-- The IPv4 header length a frame declares in its byte 14. -/
abbrev frameHlen (fb : Memory) : Nat := (fb.read 14).toNat % 16 * 4

/-- The TCP header length a frame declares behind its IPv4 header. -/
abbrev frameDoff (fb : Memory) : Nat := (fb.read (14 + frameHlen fb + 12)).toNat / 16 * 4

/-! ### What decides the terminal state -/

/-- The ethertype is IPv4 (44_dispatch.md R231). -/
abbrev CarriesIpv4 (fb : Memory) : Prop := (fb.read 12).toNat = 0x08 ∧ (fb.read 13).toNat = 0x00

/-- IPV4_DECODE raises TruncatedHeader on the Ethernet payload (42_ipv4.md R190). -/
abbrev Ipv4Short (fb : Memory) (len : Half) : Prop :=
  len.toNat - 14 < 20 ∨ len.toNat - 14 < frameHlen fb ∨ frameHlen fb < 20

/-- TCP_DECODE raises TruncatedHeader on the IPv4 payload (43_tcp.md R210). -/
abbrev TcpShort (fb : Memory) (len : Half) : Prop :=
  len.toNat - 14 - frameHlen fb < 14 ∨ frameDoff fb < 20 ∨ len.toNat - 14 - frameHlen fb < frameDoff fb

/-! ### The records of a frame -/

/-- The Ethernet record of a frame. -/
def frameEth (fb : Memory) (len : Half) : EthRecord := ethRecordAt fb 0 len

/-- The IPv4 record of a frame. -/
def frameIpv4 (fb : Memory) (len : Half) : Ipv4Record :=
  ipv4RecordAt fb (frameEth fb len).pay.off (frameEth fb len).pay.len

/-- The TCP record of a frame. -/
def frameTcp (fb : Memory) (len : Half) : TcpRecord :=
  tcpRecordAt fb (frameIpv4 fb len).pay.off (frameIpv4 fb len).pay.len

theorem frameEth_fits (fb : Memory) {len : Half} (h : ¬ len.toNat < 14) : ethFits len (frameEth fb len) = true :=
  ethFits_at fb len h

/-- The Ethernet payload (10_state.md R40). -/
theorem frameEth_pay (fb : Memory) {len : Half} (h : ¬ len.toNat < 14) :
    (frameEth fb len).pay.off.toNat = 14 ∧ (frameEth fb len).pay.len.toNat = len.toNat - 14 := by
  obtain ⟨ho, hend⟩ := (ethFits_iff _ _).mp (frameEth_fits fb h)
  exact ⟨ho, by omega⟩

section
variable {fb : Memory} {len : Half}

theorem frameEth_isIpv4 : (frameEth fb len).etype = Config.ETHERTYPE_IPV4 ↔ CarriesIpv4 fb := by
  have hlo := (fb.read 13).isLt
  change be16 (fb.read 12) (fb.read 13) = _ ↔ _
  rw [← BitVec.toNat_inj, be16_toNat, show Config.ETHERTYPE_IPV4.toNat = 2048 from rfl]
  omega

theorem ipv4Short_iff (h : ¬ len.toNat < 14) :
    ((frameEth fb len).pay.len.toNat < 20
      ∨ (frameEth fb len).pay.len.toNat < (ipv4HlenAt fb (frameEth fb len).pay.off).toNat
      ∨ (ipv4HlenAt fb (frameEth fb len).pay.off).toNat < 20) ↔ Ipv4Short fb len := by
  obtain ⟨ho, hn⟩ := frameEth_pay fb h
  rw [ipv4HlenAt_toNat, ho, hn]

theorem frameIpv4_fits (h : ¬ len.toNat < 14) (h4 : ¬ Ipv4Short fb len) : ipv4Fits len (frameIpv4 fb len) = true := by
  obtain ⟨ho, hend⟩ := (ethFits_iff _ _).mp (frameEth_fits fb h)
  exact ipv4Fits_at fb ho hend (mt (ipv4Short_iff h).mp h4)

theorem frameIpv4_hlen : (frameIpv4 fb len).hlen.toNat = frameHlen fb := ipv4HlenAt_toNat fb _

/-- The IPv4 payload (10_state.md R41). -/
theorem frameIpv4_pay (h : ¬ len.toNat < 14) (h4 : ¬ Ipv4Short fb len) :
    (frameIpv4 fb len).pay.off.toNat = 14 + frameHlen fb
      ∧ (frameIpv4 fb len).pay.len.toNat = len.toNat - 14 - frameHlen fb := by
  obtain ⟨-, ho, hend⟩ := (ipv4Fits_iff _ _).mp (frameIpv4_fits h h4)
  rw [frameIpv4_hlen] at ho
  exact ⟨ho, by omega⟩

theorem frameIpv4_isTcp : (frameIpv4 fb len).proto = Config.IPPROTO_TCP ↔ (fb.read 23).toNat = 6 := by
  change fb.read 23 = _ ↔ _
  rw [← BitVec.toNat_inj]
  exact Iff.rfl

theorem frameDoffAt_toNat (h : ¬ len.toNat < 14) (h4 : ¬ Ipv4Short fb len) :
    (tcpDoffAt fb (frameIpv4 fb len).pay.off).toNat = frameDoff fb := by
  rw [tcpDoffAt_toNat, (frameIpv4_pay h h4).1]

theorem tcpShort_iff (h : ¬ len.toNat < 14) (h4 : ¬ Ipv4Short fb len) :
    ((frameIpv4 fb len).pay.len.toNat < 14 ∨ (tcpDoffAt fb (frameIpv4 fb len).pay.off).toNat < 20
      ∨ (frameIpv4 fb len).pay.len.toNat < (tcpDoffAt fb (frameIpv4 fb len).pay.off).toNat) ↔ TcpShort fb len := by
  rw [frameDoffAt_toNat h h4, (frameIpv4_pay h h4).2]

theorem frameTcp_fits (h : ¬ len.toNat < 14) (h4 : ¬ Ipv4Short fb len) (h6 : ¬ TcpShort fb len) :
    tcpFits len (frameIpv4 fb len) (frameTcp fb len) = true := by
  obtain ⟨-, -, hend⟩ := (ipv4Fits_iff _ _).mp (frameIpv4_fits h h4)
  exact tcpFits_at fb _ hend (mt (tcpShort_iff h h4).mp h6)

/-- The TCP payload (10_state.md R42). -/
theorem frameTcp_pay (h : ¬ len.toNat < 14) (h4 : ¬ Ipv4Short fb len) (h6 : ¬ TcpShort fb len) :
    (frameTcp fb len).pay.off.toNat = 14 + frameHlen fb + frameDoff fb
      ∧ (frameTcp fb len).pay.len.toNat = len.toNat - 14 - frameHlen fb - frameDoff fb := by
  obtain ⟨-, ho, hend⟩ := (tcpFits_iff _ _ _).mp (frameTcp_fits h h4 h6)
  have hd : (frameTcp fb len).doff.toNat = frameDoff fb := frameDoffAt_toNat h h4
  rw [hd, (frameIpv4_pay h h4).1] at ho
  exact ⟨ho, by omega⟩

end

/-! ### The six endings -/

/-- The results a frame of `len` bytes can have, each with what must hold of the frame. -/
inductive Ending (fb : Memory) (len : Half) : Result → Prop where
  | ethTrunc (h : len.toNat < 14) : Ending fb len (ethTruncResult len)
  | ethUnhandled (h : ¬ len.toNat < 14) (ht : ¬ CarriesIpv4 fb) : Ending fb len (ethUnhandledResult (frameEth fb len))
  | ipv4Trunc (h : ¬ len.toNat < 14) (ht : CarriesIpv4 fb) (h4 : Ipv4Short fb len) :
      Ending fb len (ipv4TruncResult (frameEth fb len))
  | ipv4Unhandled (h : ¬ len.toNat < 14) (ht : CarriesIpv4 fb) (h4 : ¬ Ipv4Short fb len)
      (hp : (fb.read 23).toNat ≠ 6) : Ending fb len (ipv4UnhandledResult (frameEth fb len) (frameIpv4 fb len))
  | tcpTrunc (h : ¬ len.toNat < 14) (ht : CarriesIpv4 fb) (h4 : ¬ Ipv4Short fb len) (hp : (fb.read 23).toNat = 6)
      (h6 : TcpShort fb len) : Ending fb len (tcpTruncResult (frameEth fb len) (frameIpv4 fb len))
  | tcpDone (h : ¬ len.toNat < 14) (ht : CarriesIpv4 fb) (h4 : ¬ Ipv4Short fb len) (hp : (fb.read 23).toNat = 6)
      (h6 : ¬ TcpShort fb len) : Ending fb len (tcpDoneResult (frameEth fb len) (frameIpv4 fb len) (frameTcp fb len))

/-- The result of a frame is one of the six endings. -/
theorem resultOf_ending (fb : Memory) (len : Half) : Ending fb len (resultOf fb len) := by
  unfold resultOf
  split
  · exact .ethTrunc ‹_›
  next h =>
  dsimp only
  split
  next ht => exact .ethUnhandled h (mt frameEth_isIpv4.mpr ht)
  next ht =>
  have ht := frameEth_isIpv4.mp (not_not.mp ht)
  split
  next h4 => exact .ipv4Trunc h ht ((ipv4Short_iff h).mp h4)
  next h4 =>
  have h4 := mt (ipv4Short_iff h).mpr h4
  split
  next hp => exact .ipv4Unhandled h ht h4 (mt frameIpv4_isTcp.mpr hp)
  next hp =>
  have hp := frameIpv4_isTcp.mp (not_not.mp hp)
  split
  next h6 => exact .tcpTrunc h ht h4 hp ((tcpShort_iff h h4).mp h6)
  next h6 => exact .tcpDone h ht h4 hp (mt (tcpShort_iff h h4).mpr h6)

section
variable {fb : Memory} {len : Half} {r : Result}

/-- A result that has an Ethernet record has that of the frame, which holds a whole Ethernet header. -/
theorem Ending.eth_eq {e : EthRecord} (h : Ending fb len r) (he : r.eth = some e) :
    e = frameEth fb len ∧ ¬ len.toNat < 14 := by
  cases h with
  | ethTrunc => cases he
  | ethUnhandled h | ipv4Trunc h | ipv4Unhandled h | tcpTrunc h | tcpDone h => cases he; exact ⟨rfl, h⟩

/-- A result that has an IPv4 record has that of the frame, which holds a whole IPv4 header. -/
theorem Ending.ip_eq {i : Ipv4Record} (h : Ending fb len r) (hi : r.ip = some i) :
    i = frameIpv4 fb len ∧ ¬ len.toNat < 14 ∧ ¬ Ipv4Short fb len := by
  cases h with
  | ethTrunc | ethUnhandled | ipv4Trunc => cases hi
  | ipv4Unhandled h ht h4 | tcpTrunc h ht h4 | tcpDone h ht h4 => cases hi; exact ⟨rfl, h, h4⟩

/-- A result that has a TCP record has that of the frame behind the frame's IPv4 record, both with whole headers. -/
theorem Ending.tcp_eq {t : TcpRecord} (h : Ending fb len r) (ht : r.tcp = some t) :
    t = frameTcp fb len ∧ r.ip = some (frameIpv4 fb len)
      ∧ ¬ len.toNat < 14 ∧ ¬ Ipv4Short fb len ∧ ¬ TcpShort fb len := by
  cases h with
  | ethTrunc | ethUnhandled | ipv4Trunc | ipv4Unhandled | tcpTrunc => cases ht
  | tcpDone h _ h4 _ h6 => cases ht; exact ⟨rfl, rfl, h, h4, h6⟩

end

/-- Settles O30: in each of the six endings the conditions of the frame select its line of the statement, and the final
payload is that of the innermost record. -/
theorem dispatchEndsInTheTerminalStateOfTheFrame : Obligations.DispatchEndsInTheTerminalStateOfTheFrame := by
  intro L s hl
  refine ⟨_, dispatch_spec hl, rfl, ?_, rfl, rfl, rfl, rfl, rfl, rfl⟩
  have hend := resultOf_ending s.here.fb L
  simp only [writeResult_regs]
  generalize resultOf s.here.fb L = r at hend
  cases hend with
  | ethTrunc h =>
    rw [if_pos h]
    exact Prod.ext (ethTruncResult_status _) (congrArg some (eq_sliceOf ⟨rfl, rfl⟩))
  | ethUnhandled h ht =>
    rw [if_neg h, if_pos ht]
    exact Prod.ext (ethUnhandledResult_status _) (congrArg some (eq_sliceOf (frameEth_pay s.here.fb h)))
  | ipv4Trunc h ht h4 =>
    rw [if_neg h, if_neg (not_not.mpr ht), if_pos h4]
    exact Prod.ext (ipv4TruncResult_status _) (congrArg some (eq_sliceOf (frameEth_pay s.here.fb h)))
  | ipv4Unhandled h ht h4 hp =>
    rw [if_neg h, if_neg (not_not.mpr ht), if_neg h4, if_pos hp]
    exact Prod.ext (ipv4UnhandledResult_status _ _) (congrArg some (eq_sliceOf (frameIpv4_pay h h4)))
  | tcpTrunc h ht h4 hp h6 =>
    rw [if_neg h, if_neg (not_not.mpr ht), if_neg h4, if_neg (not_not.mpr hp), if_pos h6]
    exact Prod.ext (tcpTruncResult_status _ _) (congrArg some (eq_sliceOf (frameIpv4_pay h h4)))
  | tcpDone h ht h4 hp h6 =>
    rw [if_neg h, if_neg (not_not.mpr ht), if_neg h4, if_neg (not_not.mpr hp), if_neg h6]
    exact Prod.ext (tcpDoneResult_status _ _ _) (congrArg some (eq_sliceOf (frameTcp_pay h h4 h6)))

/-- Settles O33: the Ethernet registers are those of the record of the frame. -/
theorem ethernetRegistersHoldTheHeader : Obligations.EthernetRegistersHoldTheHeader := by
  intro L s hl
  refine ⟨_, dispatch_spec hl, (resultRegs_ethV _).symm, fun e he => ?_⟩
  obtain ⟨e, hr, rfl⟩ := Option.map_eq_some_iff.mp he
  obtain ⟨rfl, h⟩ := (resultOf_ending _ _).eth_eq hr
  obtain ⟨-, hn⟩ := frameEth_pay s.here.fb h
  refine ⟨fun j hj => ?_, fun j hj => ?_, be16_toNat _ _, rfl, ?_, macNumber_toNat⟩
  · simp [ethRegs, frameEth, ethRecordAt]
  · simp [ethRegs, frameEth, ethRecordAt]
  · simp only [ethRegs, hn]; omega

/-- Settles O34: the IPv4 registers are those of the record of the frame. -/
theorem ipv4RegistersHoldTheHeader : Obligations.Ipv4RegistersHoldTheHeader := by
  intro L s hl
  refine ⟨_, dispatch_spec hl, (resultRegs_ipV _).symm, fun i hi => ?_⟩
  obtain ⟨i, hr, rfl⟩ := Option.map_eq_some_iff.mp hi
  obtain ⟨rfl, h, h4⟩ := (resultOf_ending _ _).ip_eq hr
  obtain ⟨-, ho, hend⟩ := (ipv4Fits_iff _ _).mp (frameIpv4_fits h h4)
  refine ⟨nibbleHi_toNat _, frameIpv4_hlen, rfl, rfl, fun j hj => ?_, fun j hj => ?_, ho, hend, ipv4Number_toNat⟩
  · exact getElem_bytes _ _ _ _ hj
  · exact getElem_bytes _ _ _ _ hj

/-- Settles O35: the TCP registers are those of the record of the frame, read at the offset of the IPv4 payload. -/
theorem tcpRegistersHoldTheHeader : Obligations.TcpRegistersHoldTheHeader := by
  intro L s hl
  refine ⟨_, dispatch_spec hl, (resultRegs_tcpV _).symm, fun c hc => ?_⟩
  obtain ⟨c, hr, rfl⟩ := Option.map_eq_some_iff.mp hc
  obtain ⟨rfl, hip, h, h4, h6⟩ := (resultOf_ending _ _).tcp_eq hr
  obtain ⟨-, ho, hend⟩ := (tcpFits_iff _ _ _).mp (frameTcp_fits h h4 h6)
  exact ⟨_, Option.map_eq_some_iff.mpr ⟨_, hip, rfl⟩, be16_toNat _ _, be16_toNat _ _, be32_toNat _ _ _ _,
    be32_toNat _ _ _ _, tcpDoffAt_toNat _ _, packFlags_be16_toNat _ _, ho, hend⟩

end Sys2Proof.Machine
end

section
/-! SUPPORT. A turn of the host, and what a step can do to the instance of a given number. -/
namespace Sys2Proof.Machine

/-- The turn passes without regard to the schedule. -/
theorem focus_setEvents (s : State) (i : Nat) (es : List Event) :
    (s.setEvents es).focus i = (s.focus i).map fun u => u.setEvents es := by
  unfold State.focus
  rw [show (s.setEvents es).instances = s.instances from rfl]
  cases s.instances.drop i <;> rfl

/-- A turn of the host is its action on the instance the turn passes to. -/
theorem step_host {s u : State} {i : Nat} {a : HostAction} {rest : List Event} (he : s.events = .host i a :: rest)
    (hf : (s.setEvents rest).focus i = some u) : step s = hostAct i a u := by
  simp only [step, nextTurn, he, takeTurn, onInstance, hf]

/-- A read of a register that holds no value is a fault (10_state.md R45, R53). -/
theorem hostRead_noValue {s : State} {r : ResultReg} (h : regValue s.here.regs r = none) :
    hostRead r s = .fault .readOfNoValue := by
  simp only [hostRead, h]

/-- The instance that gets the turn has the invariant. -/
theorem focus_inv {s u : State} {i : Nat} (hs : s.Inv) (hf : s.focus i = some u) : u.here.Inv := by
  obtain ⟨-, -, -, -, hu⟩ := focus_spec hf
  exact hs _ (List.mem_of_getElem? hu)

/-- Settles O42: under the invariant a valid bit that is 0 announces an absent record. -/
theorem readOfAnAbsentRecordFaults : Obligations.ReadOfAnAbsentRecordFaults := by
  intro s u i rest r hs he hf
  obtain ⟨hethV, hipV, htcpV⟩ := legal_validBits (focus_inv hs hf).regsLegal
  have hstep : step s = hostRead r (u.setEvents rest) := step_host he (by rw [focus_setEvents, hf]; rfl)
  have hread (h : regValue u.here.regs r = none) : step s = .fault .readOfNoValue := by
    rw [hstep]; exact hostRead_noValue h
  refine ⟨fun hv h1 h5 => ?_, fun hv h6 h13 => ?_, fun hv h14 h21 => ?_⟩
  · exact hread (regValue_absent (.inl ⟨h1, h5, by simpa [hethV] using hv⟩))
  · exact hread (regValue_absent (.inr (.inl ⟨h6, h13, by simpa [hipV] using hv⟩)))
  · exact hread (regValue_absent (.inr (.inr ⟨h14, h21, by simpa [htcpV] using hv⟩)))

/-- A turn changes the instance it is given to and no other. -/
theorem TurnOn.getElem? {u t : State} (h : TurnOn u t) (k : Nat) :
    t.instances[k]? = if k = u.before.length then some t.here else u.instances[k]? := by
  obtain ⟨hb, ha, -⟩ := h
  unfold State.instances
  rw [hb, ha]
  split
  next hk => simp [hk]
  next hk =>
    rcases Nat.lt_or_gt_of_ne hk with hlt | hgt
    · simp [List.getElem?_append_left hlt]
    · simp [List.getElem?_append_right hgt.le, List.getElem?_cons, Nat.sub_ne_zero_of_lt hgt]

/-- What a step that is no reset does to instance `k`: nothing, where the turn is another's, and one turn otherwise. -/
theorem step_at {s t : State} {e : Event} {rest : List Event} {k : Nat} {m m' : Instance} (he : s.events = e :: rest)
    (hr : e ≠ .reset) (h : step s = .next t) (hm : s.instances[k]? = some m) (hm' : t.instances[k]? = some m') :
    (e.target ≠ some k ∧ m' = m)
      ∨ ∃ u, e.target = some k ∧ (s.setEvents rest).focus k = some u ∧ TurnOn u t ∧ u.here = m ∧ t.here = m' := by
  obtain ⟨i, u, hi, hf, hturn⟩ := step_turn he hr h
  obtain ⟨hinst, hlen, -, -, hu⟩ := focus_spec hf
  have hs : u.instances[k]? = some m := hinst ▸ hm
  rw [hturn.getElem?, hlen] at hm'
  by_cases hk : k = i
  · subst hk
    rw [if_pos rfl] at hm'
    exact .inr ⟨u, hi, hf, hturn, Option.some.inj (hu.symm.trans hm), Option.some.inj hm'⟩
  · rw [if_neg hk, hs] at hm'
    refine .inl ⟨fun ht => hk ?_, (Option.some.inj hm').symm⟩
    exact Option.some.inj (ht.symm.trans hi)

/-- What a step that is no reset does to the result registers and BUSY of an instance (10_state.md R34, 44_dispatch.md
R244, R245): the registers stay and BUSY does not fall, or BUSY falls and a result is written. -/
theorem step_regs_busy {s t : State} {e : Event} {rest : List Event} {k : Nat} {m m' : Instance}
    (he : s.events = e :: rest) (hr : e ≠ .reset) (h : step s = .next t) (hm : s.instances[k]? = some m)
    (hm' : t.instances[k]? = some m') :
    (m'.regs = m.regs ∧ (m.busy = true → m'.busy = true))
      ∨ (m.busy = true ∧ m'.busy = false ∧ ∃ r, m'.regs = resultRegs r) := by
  rcases step_at he hr h hm hm' with ⟨-, rfl⟩ | ⟨u, -, -, ⟨-, -, hkeep | ⟨hb, r, hw⟩⟩, rfl, rfl⟩
  · exact .inl ⟨rfl, id⟩
  · exact .inl ⟨hkeep.1, fun hb => (hkeep.2 hb).1⟩
  · rw [hw]
    exact .inr ⟨hb, rfl, r, rfl⟩

/-- Settles O52: a step keeps the result registers, or writes a result, which has DONE = 1, as BUSY falls. -/
theorem doneIsClearedByResetAlone : Obligations.DoneIsClearedByResetAlone := by
  refine ⟨fun n m hm => by rw [mem_resetWith hm]; rfl, ?_⟩
  intro s t e rest k m m' he hr h hm hm'
  rcases step_regs_busy he hr h hm hm' with ⟨hregs, hbusy⟩ | ⟨hb, hb', r, hregs⟩
  · rw [hregs]
    refine ⟨id, fun hb hb' => ?_, fun h0 h1 => ?_⟩
    · simp [hbusy hb] at hb'
    · simp [h0] at h1
  · rw [hregs]
    exact ⟨fun _ => resultRegs_done r, fun _ _ => resultRegs_done r, fun _ _ => ⟨hb, hb'⟩⟩

/-- A SUBMIT that is not refused finds BUSY = 0 and leaves BUSY = 1 (10_state.md R49). -/
theorem hostSubmit_next {u t : State} (h : hostSubmit u = .next t) : u.here.busy = false ∧ t.here.busy = true := by
  unfold hostSubmit at h
  split at h
  · cases h
  next hb =>
    split at h
    · cases h
    · cases h
      exact ⟨by simpa using hb, rfl⟩

/-- Settles O60: BUSY rises by SUBMIT alone, falls with a result alone, and is the host's to read and not to write. -/
theorem busyIsOneFromAcceptanceToCompletion : Obligations.BusyIsOneFromAcceptanceToCompletion := by
  refine ⟨fun n m hm => by rw [mem_resetWith hm]; rfl, ?_⟩
  intro s t e rest k m m' he hr h hm hm'
  have hfall : m.busy = true → m'.busy = false → ∃ r, m'.regs = resultRegs r := by
    intro hb hb'
    rcases step_regs_busy he hr h hm hm' with ⟨-, hbusy⟩ | ⟨-, -, hres⟩
    · simp [hbusy hb] at hb'
    · exact hres
  rcases step_at he hr h hm hm' with ⟨htarget, rfl⟩ | ⟨u, htarget, hf, -, rfl, rfl⟩
  · refine ⟨?_, fun hb hb' => ?_, hfall, fun _ _ => rfl, ?_⟩
    · rintro rfl; exact absurd rfl htarget
    · simp [hb] at hb'
    · rintro rfl; exact absurd rfl htarget
  · refine ⟨?_, fun hb hb' => step_raises_busy he h htarget hf hb hb', hfall, ?_, ?_⟩
    · rintro rfl
      exact hostSubmit_next ((step_host he hf).symm.trans h)
    · rintro v rfl
      cases (step_host he hf).symm.trans h
      rfl
    · rintro rfl
      cases (step_host he hf).symm.trans h
      rfl

end Sys2Proof.Machine
end

section
/-! SUPPORT. Two frames that agree on the bits the block decodes have one result (30_encoding.md R121): each record, and
each condition that leads to an ending, reads no other bits. -/
namespace Sys2Proof.Machine

/-! ### What the records read -/

theorem bytes_congr {fb fb' : Memory} {a n : Nat} (h : ∀ i < n, fb.read (a + i) = fb'.read (a + i)) :
    fb.bytes a n = fb'.bytes a n :=
  Vector.ext fun i hi => by simpa only [getElem_bytes] using h i hi

/-- The flags are known by their packed form (10_state.md R43). -/
theorem flagsOf_packFlags (f : TcpFlags) : flagsOf ((packFlags f).zeroExtend 16) = f := by
  obtain ⟨urg, ack, psh, rst, syn, fin⟩ := f
  revert urg ack psh rst syn fin
  decide

/-- Bits 11 to 6 of the offset/flags word are in no flag (30_encoding.md R121). -/
theorem flagsOf_be16_congr {hi lo hi' lo' : Byte} (h : lo.toNat % 64 = lo'.toNat % 64) :
    flagsOf (be16 hi lo) = flagsOf (be16 hi' lo') := by
  have hpack : packFlags (flagsOf (be16 hi lo)) = packFlags (flagsOf (be16 hi' lo')) :=
    BitVec.eq_of_toNat_eq (by rw [packFlags_be16_toNat, packFlags_be16_toNat, h])
  rw [← flagsOf_packFlags (flagsOf (be16 hi lo)), hpack, flagsOf_packFlags]

/-- Agreement on the bits TCP_DECODE reads at offset `b` (30_encoding.md R104, R105). -/
structure TcpFieldsAgree (fb fb' : Memory) (b : Nat) : Prop where
  fixed : ∀ a, b ≤ a → a < b + 12 → fb.read a = fb'.read a
  doff  : (fb.read (b + 12)).toNat / 16 = (fb'.read (b + 12)).toNat / 16
  flags : (fb.read (b + 13)).toNat % 64 = (fb'.read (b + 13)).toNat % 64

section
variable {fb fb' : Memory} {len : Half}

theorem tcpRecordAt_congr {b n : Half} (h : TcpFieldsAgree fb fb' b.toNat) :
    tcpRecordAt fb b n = tcpRecordAt fb' b n := by
  have hdoff : tcpDoffAt fb b = tcpDoffAt fb' b :=
    BitVec.eq_of_toNat_eq (by rw [tcpDoffAt_toNat, tcpDoffAt_toNat, h.doff])
  have hflags : flagsOf (tcpWordAt fb b) = flagsOf (tcpWordAt fb' b) := flagsOf_be16_congr h.flags
  simp (disch := omega) only [tcpRecordAt, hdoff, hflags, h.fixed]

theorem frameEth_congr (h : ∀ a ≤ 13, fb.read a = fb'.read a) : frameEth fb len = frameEth fb' len := by
  have hdst : fb.bytes 0 6 = fb'.bytes 0 6 := bytes_congr fun i hi => h _ (by omega)
  have hsrc : fb.bytes 6 6 = fb'.bytes 6 6 := bytes_congr fun i hi => h _ (by omega)
  simp [frameEth, ethRecordAt, hdst, hsrc, h 12, h 13]

theorem frameIpv4_congr (h14 : fb.read 14 = fb'.read 14)
    (h : ∀ a, a = 22 ∨ a = 23 ∨ (26 ≤ a ∧ a ≤ 33) → fb.read a = fb'.read a) :
    frameIpv4 fb len = frameIpv4 fb' len := by
  have hsrc : fb.bytes 26 4 = fb'.bytes 26 4 := bytes_congr fun i hi => h _ (by omega)
  have hdst : fb.bytes 30 4 = fb'.bytes 30 4 := bytes_congr fun i hi => h _ (by omega)
  simp [frameIpv4, frameEth, ethRecordAt, ipv4RecordAt, ipv4HlenAt, hsrc, hdst, h14, h 22, h 23]

theorem frameTcp_congr (h : ¬ len.toNat < 14) (h4 : ¬ Ipv4Short fb len) (hip : frameIpv4 fb len = frameIpv4 fb' len)
    (ht : TcpFieldsAgree fb fb' (14 + frameHlen fb)) : frameTcp fb len = frameTcp fb' len := by
  rw [← (frameIpv4_pay h h4).1] at ht
  rw [frameTcp, frameTcp, ← hip]
  exact tcpRecordAt_congr ht

/-! ### What the conditions read -/

theorem carriesIpv4_congr (h : ∀ a ≤ 13, fb.read a = fb'.read a) : CarriesIpv4 fb ↔ CarriesIpv4 fb' := by
  rw [CarriesIpv4, h 12 (by omega), h 13 (by omega)]

/-- Where an IPv4 header is not even begun, its length byte decides nothing. -/
theorem ipv4Short_congr (h : 34 ≤ len.toNat → fb.read 14 = fb'.read 14) : Ipv4Short fb len ↔ Ipv4Short fb' len := by
  by_cases hlen : 34 ≤ len.toNat
  · rw [Ipv4Short, frameHlen, h hlen]
  · have hfew : len.toNat - 14 < 20 := by omega
    exact iff_of_true (.inl hfew) (.inl hfew)

/-- Where the fixed part of a TCP header does not fit, its length nibble decides nothing. -/
theorem tcpShort_congr (h14 : fb.read 14 = fb'.read 14)
    (h : 14 + frameHlen fb + 14 ≤ len.toNat → TcpFieldsAgree fb fb' (14 + frameHlen fb)) :
    TcpShort fb len ↔ TcpShort fb' len := by
  have hhlen : frameHlen fb = frameHlen fb' := by rw [frameHlen, h14]
  by_cases hlen : 14 + frameHlen fb + 14 ≤ len.toNat
  · have hdoff : frameDoff fb = frameDoff fb' := by rw [frameDoff, (h hlen).doff, hhlen]
    rw [TcpShort, hdoff, hhlen]
  · have hfew : len.toNat - 14 - frameHlen fb < 14 := by omega
    exact iff_of_true (.inl hfew) (.inl (hhlen ▸ hfew))

/-- A legal IPv4 header, as the numbers of 42_ipv4.md R190. -/
theorem not_ipv4Short_iff :
    ¬ Ipv4Short fb len ↔ 34 ≤ len.toNat ∧ 20 ≤ frameHlen fb ∧ 14 + frameHlen fb ≤ len.toNat := by
  unfold Ipv4Short
  omega

end

/-! ### What the result reads -/

/-- Agreement of two frames of `len` bytes on what the block decodes of the first: each layer's fields where the layers
before it lead there (30_encoding.md R121). -/
structure DecodedAgree (fb fb' : Memory) (len : Half) : Prop where
  eth  : ¬ len.toNat < 14 → ∀ a ≤ 13, fb.read a = fb'.read a
  ihl  : CarriesIpv4 fb → 34 ≤ len.toNat → fb.read 14 = fb'.read 14
  ipv4 : CarriesIpv4 fb → ¬ Ipv4Short fb len → ∀ a, a = 22 ∨ a = 23 ∨ (26 ≤ a ∧ a ≤ 33) → fb.read a = fb'.read a
  tcp  : CarriesIpv4 fb → ¬ Ipv4Short fb len → (fb.read 23).toNat = 6 → 14 + frameHlen fb + 14 ≤ len.toNat →
    TcpFieldsAgree fb fb' (14 + frameHlen fb)

section
variable {fb fb' : Memory} {len : Half} {r r' : Result}

/-- The conditions of the six endings exclude each other. -/
theorem Ending.unique (h : Ending fb len r) (h' : Ending fb len r') : r = r' := by
  cases h with
  | ethTrunc => cases h' with | ethTrunc => rfl | _ => contradiction
  | ethUnhandled => cases h' with | ethUnhandled => rfl | _ => contradiction
  | ipv4Trunc => cases h' with | ipv4Trunc => rfl | _ => contradiction
  | ipv4Unhandled => cases h' with | ipv4Unhandled => rfl | _ => contradiction
  | tcpTrunc => cases h' with | tcpTrunc => rfl | _ => contradiction
  | tcpDone => cases h' with | tcpDone => rfl | _ => contradiction

/-- The IPv4 header of a frame that has a legal one, and what follows from its fields, is that of the other frame. -/
theorem DecodedAgree.ipv4_eq (hag : DecodedAgree fb fb' len) (ht : CarriesIpv4 fb) (h4 : ¬ Ipv4Short fb len) :
    fb.read 14 = fb'.read 14 ∧ fb.read 23 = fb'.read 23 ∧ ¬ Ipv4Short fb' len
      ∧ frameIpv4 fb len = frameIpv4 fb' len := by
  have h14 := hag.ihl ht (not_ipv4Short_iff.mp h4).1
  have hip := hag.ipv4 ht h4
  exact ⟨h14, hip 23 (by omega), mt (ipv4Short_congr fun _ => h14).mpr h4, frameIpv4_congr h14 hip⟩

/-- A frame that agrees with another on what is decoded ends as the other does, with the same records. -/
theorem Ending.of_decodedAgree (hag : DecodedAgree fb fb' len) (hend : Ending fb len r) : Ending fb' len r := by
  cases hend with
  | ethTrunc h => exact .ethTrunc h
  | ethUnhandled h ht =>
    have heth := hag.eth h
    rw [frameEth_congr heth]
    exact .ethUnhandled h (mt (carriesIpv4_congr heth).mpr ht)
  | ipv4Trunc h ht h4 =>
    have heth := hag.eth h
    rw [frameEth_congr heth]
    exact .ipv4Trunc h ((carriesIpv4_congr heth).mp ht) ((ipv4Short_congr (hag.ihl ht)).mp h4)
  | ipv4Unhandled h ht h4 hp =>
    have heth := hag.eth h
    obtain ⟨-, h23, h4', hip⟩ := hag.ipv4_eq ht h4
    rw [frameEth_congr heth, hip]
    exact .ipv4Unhandled h ((carriesIpv4_congr heth).mp ht) h4' (h23 ▸ hp)
  | tcpTrunc h ht h4 hp h6 =>
    have heth := hag.eth h
    obtain ⟨h14, h23, h4', hip⟩ := hag.ipv4_eq ht h4
    rw [frameEth_congr heth, hip]
    exact .tcpTrunc h ((carriesIpv4_congr heth).mp ht) h4' (h23 ▸ hp)
      ((tcpShort_congr h14 (hag.tcp ht h4 hp)).mp h6)
  | tcpDone h ht h4 hp h6 =>
    have heth := hag.eth h
    obtain ⟨h14, h23, h4', hip⟩ := hag.ipv4_eq ht h4
    have htcp := hag.tcp ht h4 hp
    rw [frameEth_congr heth, frameTcp_congr h h4 hip (htcp (by omega)), hip]
    exact .tcpDone h ((carriesIpv4_congr heth).mp ht) h4' (h23 ▸ hp) (mt (tcpShort_congr h14 htcp).mpr h6)

/-- The result of a frame depends on what is decoded of it alone (30_encoding.md R121). -/
theorem DecodedAgree.resultOf_eq (hag : DecodedAgree fb fb' len) : resultOf fb len = resultOf fb' len :=
  ((resultOf_ending fb len).of_decodedAgree hag).unique (resultOf_ending fb' len)

end

/-- Settles O37: the two frames agree on what is decoded, so they end alike, with the same records. -/
theorem undecodedBitsChangeNoResult : Obligations.UndecodedBitsChangeNoResult := by
  intro L s s' hl hl' fb fb' hlen tcp isIpv4 hasIpv4 isTcp heth hihl hip hfixed hdoff hflags
  have hasIpv4_of (ht : CarriesIpv4 fb) (h4 : ¬ Ipv4Short fb L) : hasIpv4 :=
    have ⟨h34, hleast, hmost⟩ := not_ipv4Short_iff.mp h4
    ⟨⟨h34, ht⟩, hleast, hmost⟩
  have hag : DecodedAgree fb fb' L :=
    { eth := fun h a ha => heth a (by omega) ha
      ihl := fun ht h34 => hihl ⟨h34, ht⟩
      ipv4 := fun ht h4 => hip (hasIpv4_of ht h4)
      tcp := fun ht h4 hp hfit =>
        have hisTcp : isTcp := ⟨hasIpv4_of ht h4, hp, hfit⟩
        ⟨hfixed hisTcp, hdoff hisTcp, hflags hisTcp⟩ }
  refine ⟨_, _, dispatch_spec hl, dispatch_spec hl', ?_⟩
  simp only [writeResult_regs]
  exact congrArg resultRegs hag.resultOf_eq

end Sys2Proof.Machine
end

section
/-! SUPPORT. The primitives one by one (40_boundary_and_extractors.md R140 to R149), and that what they answer depends on
the bytes of the frame alone (R151). -/
namespace Sys2Proof.Machine

/-! ### What the extractors answer -/

/-- A primitive that reads inside the frame completes with what it read (40_boundary_and_extractors.md R141). -/
theorem answer_admitted {α : Type} {s : State} {a n : Nat} {v : α} {f : α → Value} (h : a + n ≤ s.here.frameBytes) :
    answer (admitted s.here a n v) f s = .next (s.setHere (s.here.setRet (f v))) := by
  rw [admitted_ok v h]
  rfl

/-- Element `j` of a byte array as RD_BYTES returns it (40_boundary_and_extractors.md R146). -/
theorem getElem?_toList_bytes (fb : Memory) (a : Nat) {n j : Nat} (hj : j < n) :
    (fb.bytes a n).toList[j]? = some (fb.read (a + j)) := by
  rw [List.getElem?_eq_getElem (by simpa using hj), Vector.getElem_toList, getElem_bytes]

/-- BIT as a number (40_boundary_and_extractors.md R149). -/
theorem bitOf_toNat (w : Half) (n : Fin 6) : (bitOf w n).toNat = w.toNat / 2 ^ n.val % 2 := by
  simp [bitOf, Nat.shiftRight_eq_div_pow, Nat.and_one_is_mod]

/-- Settles O5: CHECK returns the comparison, and returning a value changes nothing else. -/
theorem checkComparesNeedWithLength : Obligations.CheckComparesNeedWithLength :=
  fun _ _ _ => rfl

/-- Settles O7: the read is admitted, and its value is the byte. -/
theorem readU8AnswersTheByte : Obligations.ReadU8AnswersTheByte :=
  fun _ _ _ h => answer_admitted h

/-- Settles O8: the read is admitted, and its value is the 16-bit assembly of the two bytes. -/
theorem readBe16IsBigEndian : Obligations.ReadBe16IsBigEndian :=
  fun _ _ _ h => ⟨_, answer_admitted h, be16_toNat _ _⟩

/-- Settles O9: the read is admitted, and its value is the 32-bit assembly of the four bytes. -/
theorem readBe32IsBigEndian : Obligations.ReadBe32IsBigEndian :=
  fun _ _ _ h => ⟨_, answer_admitted h, be32_toNat _ _ _ _⟩

/-- Settles O10: at either width the read is admitted, and its value lists the bytes in the order of their offsets. -/
theorem readBytesKeepsWireOrder : Obligations.ReadBytesKeepsWireOrder := by
  intro b o n s k h
  cases n with
  | four | six => exact ⟨_, answer_admitted h, Vector.length_toList, fun _ hj => getElem?_toList_bytes _ _ hj⟩

/-- Settles O12: the two nibbles are the quotient and the remainder of the byte by 16. -/
theorem nibblesSplitTheByte : Obligations.NibblesSplitTheByte :=
  fun x _ => ⟨_, _, rfl, rfl, nibbleHi_toNat x, nibbleLo_toNat x⟩

/-- Settles O13: the scaled nibble fits a byte. -/
theorem lenX4IsTimesFour : Obligations.LenX4IsTimesFour :=
  fun nib _ => ⟨_, rfl, lengthX4_toNat nib⟩

/-- Settles O14: the shift is a division by a power of two, and the mask a remainder by 2. -/
theorem bitIsTheNumberedBit : Obligations.BitIsTheNumberedBit :=
  fun w n _ => ⟨_, rfl, bitOf_toNat w n⟩

/-! ### What the extractors depend on -/

/-- Two instances with the same frame: its length, and each byte inside it. -/
structure SameFrame (m m' : Instance) : Prop where
  frameLen : m'.frameLen = m.frameLen
  read     : ∀ a < m.frameBytes, m'.fb.read a = m.fb.read a

section
variable {m m' : Instance} (hm : SameFrame m m') (b : Half) (o : Byte)
include hm

/-- A guarded read is stopped by both instances or by neither, so its value counts only where it is admitted. -/
theorem SameFrame.admitted_eq {α : Type} {a n : Nat} {v v' : α} (hv : a + n ≤ m.frameBytes → v' = v) :
    admitted m' a n v' = admitted m a n v := by
  have hlen : m'.frameBytes = m.frameBytes := by rw [Instance.frameBytes, Instance.frameBytes, hm.frameLen]
  by_cases h : a + n ≤ m.frameBytes
  · rw [admitted_ok v h, admitted_ok v' (hlen ▸ h), hv h]
  · rw [admitted_error v (by omega), admitted_error v' (by omega)]

theorem SameFrame.readU8_eq : readU8 m' b o = readU8 m b o :=
  hm.admitted_eq fun _ => hm.read _ (by omega)

theorem SameFrame.readBe16_eq : readBe16 m' b o = readBe16 m b o :=
  hm.admitted_eq fun _ => by simp (disch := omega) only [hm.read]

theorem SameFrame.readBe32_eq : readBe32 m' b o = readBe32 m b o :=
  hm.admitted_eq fun _ => by simp (disch := omega) only [hm.read]

theorem SameFrame.readBytes_eq (n : Nat) : readBytes m' b o n = readBytes m b o n :=
  hm.admitted_eq fun _ => bytes_congr fun _ _ => hm.read _ (by omega)

end

/-- A primitive whose read gives the same on two states answers on the one what it answers on the other. -/
theorem answer_ret_eq {α : Type} {r r' : Except Fault α} {f : α → Value} {s s' t : State} (hr : r' = r)
    (h : answer r f s = .next t) : ∃ t', answer r' f s' = .next t' ∧ t'.here.ret = t.here.ret := by
  obtain ⟨a, rfl, rfl⟩ := answer_next h
  rw [hr]
  exact ⟨returns (f a) s', rfl, rfl⟩

/-- A primitive other than RESULT_WRITE answers the same value on every state with the same frame: four of them read the
frame, and the others read no state at all (40_boundary_and_extractors.md R151). -/
theorem primitive_ret_eq {op : Instr} {s s' t : State} (hf : op.format = .primitive) (hr : ∀ r, op ≠ .resultWrite r)
    (hm : SameFrame s.here s'.here) (h : exec op s = .next t) :
    ∃ t', exec op s' = .next t' ∧ t'.here.ret = t.here.ret := by
  cases op with
  | rdU8 b o => exact answer_ret_eq (hm.readU8_eq b o) h
  | rdBe16 b o => exact answer_ret_eq (hm.readBe16_eq b o) h
  | rdBe32 b o => exact answer_ret_eq (hm.readBe32_eq b o) h
  | rdBytes b o n =>
    cases n with
    | four => exact answer_ret_eq (hm.readBytes_eq b o 4) h
    | six => exact answer_ret_eq (hm.readBytes_eq b o 6) h
  | check | slice | nibHi | nibLo | lenX4 | bit => cases h; exact ⟨_, rfl, rfl⟩
  | resultWrite r => exact absurd rfl (hr r)
  | _ => cases hf

/-- Settles O15: a primitive that answers returns a value, the same one on every state with the same frame. -/
theorem primitivesArePure : Obligations.PrimitivesArePure := by
  intro op s hf hr
  refine ⟨fun t h => ?_, fun s' t hlen hread h => primitive_ret_eq hf hr ⟨hlen, hread⟩ h⟩
  obtain ⟨v, rfl⟩ := primitive_returns hf hr h
  rfl

end Sys2Proof.Machine
end

section
/-! SUPPORT. What the Ethernet decoder does to the state on a slice of the frame (41_ethernet.md R170), and the fields of
the record it reads there. -/
namespace Sys2Proof.Machine

/-- A decoder whose record depends on one condition raises TruncatedHeader where it holds, and keeps the record elsewhere. -/
theorem settle_ite {α : Type} {c : Prop} [Decidable c] (l : Layer) (a : α) (keep : α → State → State) (s : State) :
    settle (.ok (if c then .truncated l else .record a)) keep s
      = .next (if c then raiseTruncated l s else keep a s) := by
  split <;> rfl

/-- On a slice of the frame ETH_DECODE raises TruncatedHeader, or keeps the record it reads (41_ethernet.md R170). -/
theorem exec_ethDecode {s : State} {b n : Half} (h : b.toNat + n.toNat ≤ s.here.frameBytes) :
    exec (.ethDecode b n) s
      = .next (if n.toNat < 14 then raiseTruncated .eth s else keepEth (ethRecordAt s.here.fb b n) s) := by
  rw [exec, execEthDecode, ethDecode_spec h, settle_ite]

section
variable (fb : Memory) (b n : Half)

theorem ethRecordAt_dst {j : Nat} (hj : j < 6) : (ethRecordAt fb b n).dst[j] = fb.read (b.toNat + j) :=
  getElem_bytes _ _ _ _ hj

theorem ethRecordAt_src {j : Nat} (hj : j < 6) : (ethRecordAt fb b n).src[j] = fb.read (b.toNat + 6 + j) :=
  getElem_bytes _ _ _ _ hj

/-- The ethertype is big-endian (41_ethernet.md R171). -/
theorem ethRecordAt_etype :
    (ethRecordAt fb b n).etype.toNat = 256 * (fb.read (b.toNat + 12)).toNat + (fb.read (b.toNat + 13)).toNat :=
  be16_toNat _ _

variable {b n}

/-- The Ethernet payload of a slice within 16 bits (41_ethernet.md R170). -/
theorem ethRecordAt_pay (hn : 14 ≤ n.toNat) (hfit : b.toNat + n.toNat ≤ Config.MAX_FRAME_LEN) :
    (ethRecordAt fb b n).pay.off.toNat = b.toNat + 14 ∧ (ethRecordAt fb b n).pay.len.toNat = n.toNat - 14 :=
  ⟨cut_off_toNat (h := 14) ((Nat.add_le_add_left hn _).trans hfit), cut_len_toNat (h := 14) hn⟩

end

/-- Settles O16: a slice of fewer than 14 bytes raises, and every other gives the record at its start. -/
theorem ethDecodeReadsTheHeader : Obligations.EthDecodeReadsTheHeader := by
  refine ⟨fun _ => rfl, fun b n s h => ⟨fun hn => ?_, fun hn => ⟨ethRecordAt s.here.fb b n, ?_, ?_⟩⟩⟩
  · rw [exec_ethDecode h, if_pos hn]
    rfl
  · rw [exec_ethDecode h, if_neg (Nat.not_lt.mpr hn)]
    rfl
  · obtain ⟨hoff, hlen⟩ := ethRecordAt_pay s.here.fb hn (h.trans (frameBytes_le _))
    exact ⟨fun _ => ethRecordAt_dst _ _ _, fun _ => ethRecordAt_src _ _ _, ethRecordAt_etype _ _ _, hoff, hlen⟩

end Sys2Proof.Machine
end

section
/-! SUPPORT. What the IPv4 decoder does to the state on a slice of the frame (42_ipv4.md R190), and the fields of the
record it reads there. -/
namespace Sys2Proof.Machine

/-- On a slice of the frame IPV4_DECODE raises TruncatedHeader, or keeps the record it reads (42_ipv4.md R190). -/
theorem exec_ipv4Decode {s : State} {b n : Half} (h : b.toNat + n.toNat ≤ s.here.frameBytes) :
    exec (.ipv4Decode b n) s
      = .next (if n.toNat < 20 ∨ n.toNat < (ipv4HlenAt s.here.fb b).toNat ∨ (ipv4HlenAt s.here.fb b).toNat < 20
          then raiseTruncated .ipv4 s else keepIpv4 (ipv4RecordAt s.here.fb b n) s) := by
  rw [exec, execIpv4Decode, ipv4Decode_spec h, settle_ite]

section
variable (fb : Memory) (b n : Half)

theorem ipv4RecordAt_ver : (ipv4RecordAt fb b n).ver.toNat = (fb.read b.toNat).toNat / 16 := nibbleHi_toNat _

theorem ipv4RecordAt_src {j : Nat} (hj : j < 4) : (ipv4RecordAt fb b n).src[j] = fb.read (b.toNat + 12 + j) :=
  getElem_bytes _ _ _ _ hj

theorem ipv4RecordAt_dst {j : Nat} (hj : j < 4) : (ipv4RecordAt fb b n).dst[j] = fb.read (b.toNat + 16 + j) :=
  getElem_bytes _ _ _ _ hj

variable {b n}

/-- The IPv4 payload of a slice within 16 bits that holds the whole header (42_ipv4.md R190). -/
theorem ipv4RecordAt_pay (hle : (ipv4HlenAt fb b).toNat ≤ n.toNat) (hfit : b.toNat + n.toNat ≤ Config.MAX_FRAME_LEN) :
    (ipv4RecordAt fb b n).pay.off.toNat = b.toNat + (ipv4HlenAt fb b).toNat
      ∧ (ipv4RecordAt fb b n).pay.len.toNat = n.toNat - (ipv4HlenAt fb b).toNat :=
  ⟨cut_off_toNat ((Nat.add_le_add_left hle _).trans hfit), cut_len_toNat hle⟩

end

/-- Settles O17: a slice of fewer than 20 bytes, one shorter than IHL × 4, or an IHL × 4 below 20 raises, and every other
slice gives the record at its start. -/
theorem ipv4DecodeReadsTheHeader : Obligations.Ipv4DecodeReadsTheHeader := by
  refine ⟨fun _ _ => rfl, fun b n s h => ?_⟩
  have hihl := ipv4HlenAt_toNat s.here.fb b
  dsimp only
  rw [← hihl]
  refine ⟨fun hshort => ?_, fun h20 hle hleast => ⟨ipv4RecordAt s.here.fb b n, ?_, ?_⟩⟩
  · rw [exec_ipv4Decode h, if_pos hshort]
    rfl
  · rw [exec_ipv4Decode h, if_neg (by omega)]
    rfl
  · obtain ⟨hoff, hlen⟩ := ipv4RecordAt_pay s.here.fb hle (h.trans (frameBytes_le _))
    exact ⟨ipv4RecordAt_ver _ _ _, rfl, rfl, rfl, fun _ => ipv4RecordAt_src _ _ _, fun _ => ipv4RecordAt_dst _ _ _,
      hoff, hlen⟩

end Sys2Proof.Machine
end

section
/-! SUPPORT. What the TCP decoder does to the state on a slice of the frame (43_tcp.md R210), and the fields of the
record it reads there. -/
namespace Sys2Proof.Machine

/-- On a slice of the frame TCP_DECODE raises TruncatedHeader, or keeps the record it reads (43_tcp.md R210). -/
theorem exec_tcpDecode {s : State} {b n : Half} (h : b.toNat + n.toNat ≤ s.here.frameBytes) :
    exec (.tcpDecode b n) s
      = .next (if n.toNat < 14 ∨ (tcpDoffAt s.here.fb b).toNat < 20 ∨ n.toNat < (tcpDoffAt s.here.fb b).toNat
          then raiseTruncated .tcp s else keepTcp (tcpRecordAt s.here.fb b n) s) := by
  rw [exec, execTcpDecode, tcpDecode_spec h, settle_ite]

/-- Where the index is below 8, a bit of an assembled word is one of its second byte, here as a number. -/
theorem be16_getLsbD_low (hi lo : Byte) {i : Nat} (h : i < 8) :
    (be16 hi lo).getLsbD i = decide (lo.toNat / 2 ^ i % 2 = 1) := by
  rw [be16, BitVec.getLsbD_append, if_pos h]
  exact Nat.testBit_eq_decide_div_mod_eq

/-- All six flags are in the second byte of the offset/flags word (43_tcp.md R210, R212). -/
theorem flagsOf_be16 (hi lo : Byte) :
    flagsOf (be16 hi lo)
      = ⟨decide (lo.toNat / 32 % 2 = 1), decide (lo.toNat / 16 % 2 = 1), decide (lo.toNat / 8 % 2 = 1),
          decide (lo.toNat / 4 % 2 = 1), decide (lo.toNat / 2 % 2 = 1), decide (lo.toNat % 2 = 1)⟩ := by
  rw [flagsOf_eq]
  simp (disch := decide) only [be16_getLsbD_low, Nat.reducePow, Nat.div_one]

/-- The TCP payload of a slice within 16 bits that holds the whole header (43_tcp.md R210). -/
theorem tcpRecordAt_pay (fb : Memory) {b n : Half} (hle : (tcpDoffAt fb b).toNat ≤ n.toNat)
    (hfit : b.toNat + n.toNat ≤ Config.MAX_FRAME_LEN) :
    (tcpRecordAt fb b n).pay.off.toNat = b.toNat + (tcpDoffAt fb b).toNat
      ∧ (tcpRecordAt fb b n).pay.len.toNat = n.toNat - (tcpDoffAt fb b).toNat :=
  ⟨cut_off_toNat ((Nat.add_le_add_left hle _).trans hfit), cut_len_toNat hle⟩

/-- Settles O18: a slice of fewer than 14 bytes, a data offset × 4 below 20, or one beyond the slice raises, and every
other slice gives the record at its start. -/
theorem tcpDecodeReadsTheHeader : Obligations.TcpDecodeReadsTheHeader := by
  refine ⟨fun _ _ => rfl, fun b n s h => ?_⟩
  have hdoff := tcpDoffAt_toNat s.here.fb b
  dsimp only
  rw [← hdoff]
  refine ⟨fun hshort => ?_, fun h14 hleast hle => ⟨tcpRecordAt s.here.fb b n, ?_, ?_⟩⟩
  · rw [exec_tcpDecode h, if_pos hshort]
    rfl
  · rw [exec_tcpDecode h, if_neg (by omega)]
    rfl
  · obtain ⟨hoff, hlen⟩ := tcpRecordAt_pay s.here.fb hle (h.trans (frameBytes_le _))
    have hflags : (tcpRecordAt s.here.fb b n).flags = _ := flagsOf_be16 _ _
    rw [hflags]
    exact ⟨be16_toNat _ _, be16_toNat _ _, be32_toNat _ _ _ _, be32_toNat _ _ _ _, rfl, rfl, rfl, rfl, rfl, rfl, rfl,
      hoff, hlen⟩

end Sys2Proof.Machine
end

section
/-! SUPPORT. The multiplexers, the terminal states and the result update of DISPATCH (44_dispatch.md R231 to R246). -/
namespace Sys2Proof

/-- An operation on the Ethernet record is decoded where the cascade has it. -/
theorem needEth_some {c : Cascade} {e : EthRecord} (f : EthRecord → Instr) (he : c.eth = some e) :
    needEth c f = .ok (f e) := by
  simp only [needEth, he]

/-- An operation on the Ethernet and IPv4 records is decoded where the cascade has both. -/
theorem needEthIp_some {c : Cascade} {e : EthRecord} {i : Ipv4Record} (f : EthRecord → Ipv4Record → Instr)
    (he : c.eth = some e) (hi : c.ip = some i) : needEthIp c f = .ok (f e i) := by
  simp only [needEthIp, he, hi]

/-- The operation that an offered ethertype selects, as its wire bytes (30_encoding.md R116, 44_dispatch.md R231). -/
theorem decode_ethertype16 {c : Cascade} {e : EthRecord} (he : c.eth = some e) (etype : Half) (pay : Slice) :
    decode (.selected { c with sel := .ethertype16 (wire16 etype) pay })
      = if etype = Config.ETHERTYPE_IPV4 then .ok (.ipv4Decode pay.off pay.len) else .ok (.ethUnhandled e) := by
  simp only [decode, decodeSelected, decodeEthertype, wire16, be16_wire, l3Target_eq]
  by_cases h : etype = Config.ETHERTYPE_IPV4
  · simp only [if_pos h]
  · simp only [if_neg h]
    exact needEth_some _ he

/-- The operation that an offered protocol selects (30_encoding.md R117, 44_dispatch.md R233). -/
theorem decode_ipproto8 {c : Cascade} {e : EthRecord} {i : Ipv4Record} (he : c.eth = some e) (hi : c.ip = some i)
    (proto : Byte) (pay : Slice) :
    decode (.selected { c with sel := .ipproto8 [proto] pay })
      = if proto = Config.IPPROTO_TCP then .ok (.tcpDecode pay.off pay.len) else .ok (.ipv4Unhandled e i) := by
  simp only [decode, decodeSelected, decodeIpproto, l4Target_eq]
  by_cases h : proto = Config.IPPROTO_TCP
  · simp only [if_pos h]
  · simp only [if_neg h]
    exact needEthIp_some _ he hi

end Sys2Proof

namespace Sys2Proof.Machine

/-! ### The result depends on the frame alone -/

/-- Two frame buffers that agree below the frame's end agree on what is decoded: every layer reads inside the frame. -/
theorem DecodedAgree.of_read_eq {fb fb' : Memory} {len : Half} (h : ∀ a < len.toNat, fb.read a = fb'.read a) :
    DecodedAgree fb fb' len where
  eth := fun hlen a ha => h a (by omega)
  ihl := fun _ hlen => h 14 (by omega)
  ipv4 := fun _ h4 a ha => h a (by have := not_ipv4Short_iff.mp h4; omega)
  tcp := fun _ _ _ hlen =>
    { fixed := fun a _ ha => h a (by omega)
      doff := by rw [h _ (by omega)]
      flags := by rw [h _ (by omega)] }

/-- Settles O36: DISPATCH writes the result of the frame, a function of what is decoded, all of it inside the frame. -/
theorem resultDependsOnTheFrameAlone : Obligations.ResultDependsOnTheFrameAlone := by
  intro L s s' hl hl' hread
  have hres : resultOf s.here.fb L = resultOf s'.here.fb L := (DecodedAgree.of_read_eq hread).resultOf_eq
  exact ⟨_, _, dispatch_spec hl, dispatch_spec hl', congrArg resultRegs hres, rfl⟩

/-! ### How a transaction ends -/

/-- Reading a register changes nothing of the machine but what the host has read (10_state.md R34). -/
theorem hostRead_here {u t : State} {r : ResultReg} (h : hostRead r u = .next t) : t.here = u.here := by
  unfold hostRead at h
  split at h
  · cases h
  · split at h
    · cases h
    · cases h; rfl

/-- Reading FB changes nothing of the machine but what the host has read (20_memory.md R90). -/
theorem hostReadFb_here {u t : State} {o n : Nat} (h : hostReadFb o n u = .next t) : t.here = u.here := by
  unfold hostReadFb at h
  split at h
  · cases h
  · cases h; rfl

/-- A host write of FB on a busy instance is refused (70_reset_and_hazards.md R300 (c)). -/
theorem hostWriteFb_busy {u : State} (hb : u.here.busy = true) (o : Nat) (bytes : List Byte) :
    hostWriteFb o bytes u = .refused .hostWroteDuringTransaction := if_pos hb

/-- While BUSY = 1 no action of the host but WAIT changes the instance: its writes are refused or have no effect
(70_reset_and_hazards.md R300, 10_state.md R34). -/
theorem hostAct_here_of_busy {u t : State} {i : Nat} {a : HostAction} (hb : u.here.busy = true) (ha : a ≠ .wait)
    (h : hostAct i a u = .next t) : t.here = u.here := by
  cases a with
  | wait => exact absurd rfl ha
  | writeFb o bytes => cases (hostWriteFb_busy hb o bytes).symm.trans h
  | setLen l => simp [hostAct, hostSetLen, hb] at h
  | submit => simp [hostAct, hostSubmit, hb] at h
  | read r => exact hostRead_here h
  | readFb o n => exact hostReadFb_here h
  | decode | readBusy | writeReg | writeBusy => cases h; rfl
  | readLen =>
    simp only [hostAct, hostReadLen] at h
    split at h
    · cases h
    · cases h; rfl
  | readAt addr =>
    simp only [hostAct, hostReadAt] at h
    split at h
    · exact hostRead_here h
    · split at h
      · exact hostReadFb_here h
      · cases h
  | writeAt addr v =>
    simp only [hostAct, hostWriteAt] at h
    split at h
    · cases h; rfl
    · split at h
      · cases (hostWriteFb_busy hb _ _).symm.trans h
      · cases h

/-- The evaluation of a primitive by name changes only the value returned (40_boundary_and_extractors.md R151). -/
theorem runWord_call_returns {u t : State} {p : Primitive} {args : List Nat}
    (h : runWord (.call p args) u = .next t) : ∃ v, t = returns v u := by
  unfold runWord at h
  split at h
  · cases h
  · obtain ⟨hf, hr⟩ := decodeCall_isPrimitive ‹_›
    exact primitive_returns hf hr h

/-- The result registers hold one whole well-formed result (44_dispatch.md R244, R245). -/
def HoldsResult (m : Instance) : Prop := ∃ r : Result, r.WellFormed = true ∧ m.regs = resultRegs r

/-- DISPATCH on the frame's length leaves the result of the frame, which is well-formed. -/
theorem dispatch_holdsResult {u t : State} {len : Half} (h : exec (.dispatch len) u = .next t)
    (hl : u.here.frameLen = some len) : HoldsResult t.here := by
  obtain ⟨-, hwf, -⟩ := runCascade_spec hl
  cases (dispatch_spec hl).symm.trans h
  exact ⟨_, hwf, rfl⟩

/-- A single operation of a consistent request moves it on, or ends it with a well-formed result. -/
theorem advanceTurn_holdsResult {u t : State} (hu : u.here.Inv) (hb : u.here.busy = true) (hb' : t.here.busy = false)
    (h : advanceTurn u = .next t) : HoldsResult t.here := by
  obtain ⟨hl, hc⟩ := hu.inFlight hb
  obtain ⟨op, hop, hx⟩ := selected_spec hl hc
  replace h : exec op u = .next t := by simpa only [advanceTurn, hb, if_true, runWord, hop] using h
  rcases hx with ⟨r, rfl, hr, -⟩ | ⟨v, c, hmoves, -⟩
  · cases h
    exact ⟨r, hr, rfl⟩
  · cases hmoves.symm.trans h
    cases hb.symm.trans hb'

/-- A turn with which BUSY falls leaves a well-formed result: a WAIT or a complete turn writes that of the frame, an
advance turn that of the request in flight, and no other turn ends a transaction (44_dispatch.md R245). -/
theorem step_holdsResult {s t u : State} {e : Event} {rest : List Event} {k : Nat} (he : s.events = e :: rest)
    (h : step s = .next t) (hk : e.target = some k) (hf : (s.setEvents rest).focus k = some u) (hu : u.here.Inv)
    (hb : u.here.busy = true) (hb' : t.here.busy = false) : HoldsResult t.here := by
  obtain ⟨hl, -⟩ := hu.inFlight hb
  simp only [step, nextTurn, he] at h
  cases e with
  | reset => cases hk
  | host i a =>
    cases hk
    simp only [takeTurn, onInstance, hf] at h
    by_cases ha : a = .wait
    · subst ha
      simp only [hostAct, hostWait, hb, if_true] at h
      exact dispatch_holdsResult h hl
    · rw [hostAct_here_of_busy hb ha h, hb] at hb'
      cases hb'
  | complete i =>
    cases hk
    simp only [takeTurn, onInstance, hf, completeTurn, hb, if_true] at h
    exact dispatch_holdsResult h hl
  | advance i =>
    cases hk
    simp only [takeTurn, onInstance, hf] at h
    exact advanceTurn_holdsResult hu hb hb' h
  | evaluate i p args =>
    cases hk
    simp only [takeTurn, onInstance, hf] at h
    obtain ⟨v, rfl⟩ := runWord_call_returns h
    cases hb.symm.trans hb'

/-- Settles O51: a step that changes the registers is one with which BUSY falls, and such a step, taken by the instance
itself, leaves a well-formed result. -/
theorem resultUpdateIsIndivisible : Obligations.ResultUpdateIsIndivisible := by
  intro s t e rest k m m' hs he hr h hm hm'
  refine ⟨fun hne => ?_, fun hb hb' => ?_⟩
  · rcases step_regs_busy he hr h hm hm' with ⟨hregs, -⟩ | ⟨hb, hb', -⟩
    · exact absurd hregs hne
    · exact ⟨hb, hb'⟩
  · rcases step_at he hr h hm hm' with ⟨-, rfl⟩ | ⟨u, hk, hf, -, rfl, rfl⟩
    · cases hb.symm.trans hb'
    · exact step_holdsResult he h hk hf (hs _ (List.mem_of_getElem? hm)) hb hb'

/-! ### The multiplexers -/

/-- Settles O21: the ethertype is offered as its wire bytes, which select by the whole value. -/
theorem selL3SelectsByEthertype : Obligations.SelL3SelectsByEthertype :=
  fun etype pay _ => ⟨_, rfl, rfl, congrArg Value.selL3 (l3Target_eq etype), fun _ he => decode_ethertype16 he etype pay⟩

/-- Settles O22: the protocol is offered as the byte it is, which selects by its whole value. -/
theorem selL4SelectsByProtocol : Obligations.SelL4SelectsByProtocol :=
  fun proto pay _ =>
    ⟨_, rfl, rfl, congrArg Value.selL4 (l4Target_eq proto), fun _ _ he hi => decode_ipproto8 he hi proto pay⟩

/-! ### The terminal states -/

/-- Settles O23: every ethertype but 0x0800 selects ETH_UNHANDLED, which concludes with its result. -/
theorem ethUnhandledEndsNormally : Obligations.EthUnhandledEndsNormally :=
  fun e _ => ⟨ethUnhandledResult e, rfl, rfl, ethUnhandledResult_status e,
    fun _ p he ht => (decode_ethertype16 he e.etype p).trans (if_neg ht)⟩

/-- Settles O24: every protocol but 6 selects IPV4_UNHANDLED, which concludes with its result. -/
theorem ipv4UnhandledEndsNormally : Obligations.Ipv4UnhandledEndsNormally :=
  fun e i _ => ⟨ipv4UnhandledResult e i, rfl, rfl, ipv4UnhandledResult_status e i,
    fun _ p he hi hp => (decode_ipproto8 he hi i.proto p).trans (if_neg hp)⟩

/-- Settles O25: a TruncatedHeader at ETH selects ETH_TRUNC on the frame's length, which concludes with its result. -/
theorem ethTruncReportsNoRecord : Obligations.EthTruncReportsNoRecord :=
  fun len _ => ⟨ethTruncResult len, rfl, rfl, ethTruncResult_status len,
    fun _ hlen => congrArg (fun n => Except.ok (Instr.ethTrunc n)) hlen⟩

/-- Settles O26: a TruncatedHeader at IPV4 selects IPV4_TRUNC on the record kept, which concludes with its result. -/
theorem ipv4TruncKeepsTheEthernetRecord : Obligations.Ipv4TruncKeepsTheEthernetRecord :=
  fun e _ => ⟨ipv4TruncResult e, rfl, rfl, ipv4TruncResult_status e, fun _ he => needEth_some .ipv4Trunc he⟩

/-- Settles O27: a TruncatedHeader at TCP selects TCP_TRUNC on the two records kept, which concludes with its result. -/
theorem tcpTruncKeepsTheOuterRecords : Obligations.TcpTruncKeepsTheOuterRecords :=
  fun e i _ => ⟨tcpTruncResult e i, rfl, rfl, tcpTruncResult_status e i, fun _ he hi => needEthIp_some .tcpTrunc he hi⟩

/-- Where the cascade has all three records, the return of the TCP record selects TCP_DONE (44_dispatch.md R238). -/
theorem decode_returned {c : Cascade} {e : EthRecord} {i : Ipv4Record} {t : TcpRecord} (he : c.eth = some e)
    (hi : c.ip = some i) (ht : c.tcp = some t) :
    decode (.selected { c with sel := .returned }) = .ok (.tcpDone e i t) := by
  simp only [decode, decodeSelected, ht]
  exact needEthIp_some _ he hi

/-- Settles O28: the return of the TCP record selects TCP_DONE, which concludes with its result. -/
theorem tcpDoneReportsAllRecords : Obligations.TcpDoneReportsAllRecords :=
  fun e i t _ => ⟨tcpDoneResult e i t, rfl, rfl, tcpDoneResult_status e i t, fun _ => decode_returned⟩

/-! ### The result update -/

section
variable (done ethV ipV tcpV : Bool) (term : BitVec 3) (cause : BitVec 4)

@[simp] theorem statusReserved7_statusWord : statusReserved7 (statusWord done ethV ipV tcpV term cause) = 0 := by
  apply BitVec.eq_of_getLsbD_eq
  intro j hj
  obtain rfl : j = 0 := by omega
  simp only [statusReserved7, statusWord, BitVec.getLsbD_extractLsb', BitVec.getLsbD_append]
  simp

@[simp] theorem statusReserved15_statusWord : statusReserved15 (statusWord done ethV ipV tcpV term cause) = 0 := by
  apply BitVec.eq_of_getLsbD_eq
  intro j hj
  simp only [statusReserved15, statusWord, BitVec.getLsbD_extractLsb', BitVec.getLsbD_append]
  interval_cases j <;> simp

end

/-- 10_state.md R37. -/
theorem termCause_eq (term : Term) :
    termCause term = if term = .ethTrunc ∨ term = .ipv4Trunc ∨ term = .tcpTrunc then 1 else 0 := by
  cases term <;> rfl

/-- Settles O29: STATUS is read back field by field, and every other register is that of its record. -/
theorem resultWriteWritesEveryRegister : Obligations.ResultWriteWritesEveryRegister := by
  intro r s
  refine ⟨writeResult r s, rfl, rfl, resultRegs_done r, ?ethV, ?ipV, ?tcpV, ?term, ?cause,
    statusReserved7_statusWord .., statusReserved15_statusWord .., rfl, rfl, rfl, rfl, rfl, rfl, rfl, rfl, rfl, rfl⟩
  case ethV | ipV | tcpV => simp [resultRegs]
  case term =>
    rw [writeResult_regs, resultRegs_term]
    cases r.term <;> rfl
  case cause => exact (resultRegs_cause r).trans (termCause_eq r.term)

end Sys2Proof.Machine
end

section
/-! SUPPORT. The turns of an idle instance. -/
namespace Sys2Proof.Machine

/-- A turn that passes to an instance takes place on that instance, with the turn off the schedule. -/
theorem onInstance_setEvents {s u : State} {i : Nat} (hf : s.focus i = some u) (rest : List Event)
    (f : State → Host.Outcome State Fault Refusal) :
    onInstance i f (s.setEvents rest) = f (u.setEvents rest) := by
  simp only [onInstance, focus_setEvents, hf, Option.map_some]

/-- A step is the first turn of the schedule. -/
theorem step_cons {s : State} {e : Event} {rest : List Event} (he : s.events = e :: rest) :
    step s = takeTurn e (s.setEvents rest) := by
  simp only [step, nextTurn, he]

/-- 60_exceptions.md R286. -/
theorem advanceTurn_idle {s : State} (h : s.here.busy = false) : advanceTurn s = .next s :=
  if_neg (by simp [h])

/-- 60_exceptions.md R286. -/
theorem completeTurn_idle {s : State} (h : s.here.busy = false) : completeTurn s = .next s :=
  if_neg (by simp [h])

/-- Settles O48: either turn passes to the instance, which waits because its BUSY is 0. -/
theorem idleInstanceWaits : Obligations.IdleInstanceWaits := by
  intro s u i rest hf hidle
  refine ⟨fun he => ?advance, fun he => ?complete⟩
  case advance =>
    calc step s = advanceTurn (u.setEvents rest) := (step_cons he).trans (onInstance_setEvents hf rest advanceTurn)
      _ = .next (u.setEvents rest) := advanceTurn_idle hidle
  case complete =>
    calc step s = completeTurn (u.setEvents rest) := (step_cons he).trans (onInstance_setEvents hf rest completeTurn)
      _ = .next (u.setEvents rest) := completeTurn_idle hidle

end Sys2Proof.Machine
end

section
/-! SUPPORT. The reset turn. -/
namespace Sys2Proof.Machine

@[simp] theorem Instance.resetKeepingFb_fb (m : Instance) : m.resetKeepingFb.fb = m.fb := rfl
@[simp] theorem Instance.resetKeepingFb_frameLen (m : Instance) : m.resetKeepingFb.frameLen = none := rfl
@[simp] theorem Instance.resetKeepingFb_busy (m : Instance) : m.resetKeepingFb.busy = false := rfl
@[simp] theorem Instance.resetKeepingFb_regs (m : Instance) : m.resetKeepingFb.regs = ResultRegs.reset := rfl

@[simp] theorem State.setEvents_instances (s : State) (x : List Event) : (s.setEvents x).instances = s.instances := rfl

/-- 70_reset_and_hazards.md R290: reset reaches every instance, and their number and order stay. -/
@[simp] theorem State.resetInstances_instances (s : State) :
    s.resetInstances.instances = s.instances.map Instance.resetKeepingFb := by
  simp only [State.resetInstances, State.instances, List.map_append, List.map_cons]

/-- Settles O39: instance `i` after the turn is instance `i` before it, reset but for its FB. -/
theorem resetAbandonsTransactionsAndKeepsFb : Obligations.ResetAbandonsTransactionsAndKeepsFb := by
  intro s rest he
  refine ⟨(s.setEvents rest).resetInstances, step_cons he, by simp, rfl, ?_⟩
  intro i m m' hm hm'
  obtain rfl : m.resetKeepingFb = m' := by simpa [hm] using hm'
  have hvalues : ∀ r, r ≠ .STATUS → regValue m.resetKeepingFb.regs r = none := fun r hr => regValue_reset hr
  exact ⟨m.resetKeepingFb_busy, rfl, m.resetKeepingFb_frameLen, hvalues, fun a => by rw [m.resetKeepingFb_fb]⟩

end Sys2Proof.Machine
end

section
/-! SUPPORT. Decoding of what selects each operation (30_encoding.md R115 to R118, R123, R125). -/
namespace Sys2Proof

/-- Two bytes assembled are laid out as those bytes (20_memory.md R73). -/
theorem wire16_be16 (hi lo : Byte) : wire16 (be16 hi lo) = [hi, lo] := by
  have hhi : (be16 hi lo).extractLsb' 8 8 = hi := BitVec.eq_of_toNat_eq (by
    have := hi.isLt; have := lo.isLt
    rw [BitVec.extractLsb'_toNat, be16_toNat, Nat.shiftRight_eq_div_pow]; omega)
  have hlo : (be16 hi lo).extractLsb' 0 8 = lo := BitVec.eq_of_toNat_eq (by
    have := lo.isLt
    rw [BitVec.extractLsb'_toNat, be16_toNat, Nat.shiftRight_zero]; omega)
  rw [wire16, hhi, hlo]

/-- The ethertype that selects IPV4_DECODE, byte by byte (30_encoding.md R116). -/
theorem be16_eq_ipv4_iff (hi lo : Byte) :
    be16 hi lo = Config.ETHERTYPE_IPV4 ↔ hi.toNat = 0x08 ∧ lo.toNat = 0x00 := by
  have hlo := lo.isLt
  rw [← BitVec.toNat_inj, be16_toNat, show Config.ETHERTYPE_IPV4.toNat = 2048 from rfl]
  omega

/-- A read called with the numbers of its two offsets decodes to it (30_encoding.md R123). -/
theorem decodeRead_toNat (f : Half → Byte → Instr) (b : Half) (o : Byte) :
    decodeRead f b.toNat o.toNat = .ok (f b o) := by
  simp only [decodeRead, operand_toNat]
  rfl

/-- A primitive decodes from its call by name with the numbers of its operands, RESULT_WRITE from the result that ended
the cascade (30_encoding.md R123, R125). -/
theorem decode_encode_primitive {i : Instr} (hf : i.format = .primitive) : decode (encode i) = .ok i := by
  cases i with
  | rdU8 b o | rdBe16 b o | rdBe32 b o => exact decodeRead_toNat _ b o
  | rdBytes b o n => cases n with | four | six => exact decodeRead_toNat _ b o
  | resultWrite r => rfl
  | check | slice | nibHi | nibLo | lenX4 =>
    simp only [encode, decode, decodeCall, operand_toNat]
    rfl
  | bit w n =>
    simp only [encode, decode, decodeCall, operand_toNat]
    exact dif_pos n.isLt
  | _ => cases hf

/-- Settles O2: a discriminator on the wire selects its own row, whose operands and records the cascade holds; the
primitives are called with the numbers of their operands. -/
theorem decodeOfEncodeIsTheOperation : Obligations.DecodeOfEncodeIsTheOperation := by
  intro i hwf
  cases i with
  | dispatch | ipv4Decode | tcpDecode | ethTrunc | ipv4Trunc | tcpTrunc | tcpDone | selL3 | selL4 => rfl
  | ethDecode b n =>
    obtain rfl : b = 0 := of_decide_eq_true hwf
    rfl
  | ethUnhandled e =>
    simp only [Instr.WellFormed, Bool.and_eq_true, decide_eq_true_eq] at hwf
    obtain ⟨ht, -⟩ := hwf
    exact (decode_ethertype16 (c := { Cascade.start 0 with eth := some e }) rfl e.etype e.pay).trans (if_neg ht)
  | ipv4Unhandled e i =>
    simp only [Instr.WellFormed, Bool.and_eq_true, decide_eq_true_eq] at hwf
    obtain ⟨⟨⟨-, hp⟩, -⟩, -⟩ := hwf
    exact (decode_ipproto8 (c := { Cascade.start 0 with eth := some e, ip := some i }) rfl rfl i.proto i.pay).trans
      (if_neg hp)
  | check | slice | rdU8 | rdBe16 | rdBe32 | rdBytes | nibHi | nibLo | lenX4 | bit | resultWrite =>
    exact decode_encode_primitive rfl

/-- Settles O1: each of the nine words is written out, so decoding computes. -/
theorem wordsDecodeToTheirRows : Obligations.WordsDecodeToTheirRows := by
  unfold Obligations.WordsDecodeToTheirRows
  decide

/-- Settles O3: the two bytes offered are those of the ethertype they assemble to, and the row of IPV4_DECODE compares
all of it; the protocol is one byte. -/
theorem oneRowAppliesToEveryDiscriminator : Obligations.OneRowAppliesToEveryDiscriminator := by
  refine ⟨fun hi lo c e pay he => ?_, fun p c e i pay he hip => ?_⟩
  · rw [← wire16_be16, decode_ethertype16 he]
    exact if_congr (be16_eq_ipv4_iff hi lo) rfl rfl
  · rw [decode_ipproto8 he hip]
    exact if_congr BitVec.toNat_inj.symm rfl rfl

end Sys2Proof
end

section
/-! SUPPORT. A frame laid out by the header formats (30_encoding.md R101, R102, R104, R105), byte by byte in the frame
buffer, and what the decoders read of it. -/
namespace Sys2Proof.Machine

/-! ### Bytes laid out in the frame buffer -/

/-- The frame buffer holds these bytes at rising offsets from `o`. -/
def Memory.Holds (fb : Memory) (o : Nat) (bytes : List Byte) : Prop :=
  ∀ k, k < bytes.length → bytes[k]? = some (fb.read (o + k))

section
variable {fb : Memory} {o : Nat}

@[simp] theorem holds_nil : fb.Holds o [] := fun _ hk => absurd hk (Nat.not_lt_zero _)

@[simp] theorem holds_cons {b : Byte} {bytes : List Byte} :
    fb.Holds o (b :: bytes) ↔ fb.read o = b ∧ fb.Holds (o + 1) bytes := by
  refine ⟨fun h => ⟨?_, fun k hk => ?_⟩, fun ⟨hb, h⟩ k hk => ?_⟩
  · simpa using (h 0 (by simp)).symm
  · simpa [Nat.add_assoc, Nat.add_comm 1] using h (k + 1) (by simpa using hk)
  · cases k with
    | zero => simp [hb]
    | succ k => simpa [Nat.add_assoc, Nat.add_comm 1] using h k (by simpa using hk)

@[simp] theorem holds_append {l l' : List Byte} :
    fb.Holds o (l ++ l') ↔ fb.Holds o l ∧ fb.Holds (o + l.length) l' := by
  induction l generalizing o with
  | nil => simp
  | cons b l ih => simp [ih, and_assoc, Nat.add_assoc, Nat.add_comm 1]

/-- An address field laid out is the one read. -/
@[simp] theorem holds_toList {n : Nat} {v : Vector Byte n} : fb.Holds o v.toList ↔ fb.bytes o n = v := by
  refine ⟨fun h => Vector.ext fun i hi => ?_, ?_⟩
  · simpa [hi] using (h i (by simpa using hi)).symm
  · rintro rfl k hk
    exact getElem?_toList_bytes fb o (by simpa using hk)

end

/-! ### The bit fields of the headers -/

/-- Two nibbles of one byte, the version and the IHL of byte 0 of the IPv4 header (30_encoding.md R103). -/
theorem nibbles_append (hi lo : Nibble) : nibbleHi (hi ++ lo) = hi ∧ nibbleLo (hi ++ lo) = lo := by
  have hhi := hi.isLt
  have hlo := lo.isLt
  have happ : (hi ++ lo : BitVec 8).toNat = 16 * hi.toNat + lo.toNat := by
    rw [BitVec.toNat_append, ← Nat.shiftLeft_add_eq_or_of_lt hlo, Nat.shiftLeft_eq, Nat.mul_comm]
  constructor
  · refine BitVec.eq_of_toNat_eq ?_
    rw [nibbleHi_toNat, happ]; omega
  · refine BitVec.eq_of_toNat_eq ?_
    rw [nibbleLo_toNat, happ]; omega

/-- Bits 15 to 12 of the offset/flags word are the data offset (30_encoding.md R105). -/
theorem dataOffset_word (t : TcpHeader) : dataOffset t.word = t.doff := by
  apply BitVec.eq_of_getLsbD_eq
  intro j hj
  simp only [dataOffset, TcpHeader.word, Config.TCP_DOFF_SHIFT, BitVec.truncate_eq_setWidth, BitVec.getLsbD_setWidth,
    BitVec.getLsbD_ushiftRight, BitVec.getLsbD_append]
  interval_cases j <;> simp

/-- Bits 5 to 0 of the offset/flags word are the flags (30_encoding.md R105). -/
theorem flagsOf_word (t : TcpHeader) : flagsOf t.word = t.flags := by
  rw [flagsOf_eq]
  simp only [TcpHeader.word, BitVec.getLsbD_append]
  simp

/-! ### The records of the headers laid out -/

theorem ethHeader_length (e : EthHeader) : e.bytes.length = 14 := by simp [EthHeader.bytes, wire16]

theorem ipv4Header_length {i : Ipv4Header} (h : i.WellFormed = true) :
    20 ≤ i.ihl.toNat * 4 ∧ i.bytes.length = i.ihl.toNat * 4 := by
  simp only [Ipv4Header.WellFormed, Bool.and_eq_true, decide_eq_true_eq] at h
  simp only [Ipv4Header.bytes, List.length_append, List.length_cons, List.length_nil, Vector.length_toList]
  omega

theorem tcpHeader_length {t : TcpHeader} (h : t.WellFormed = true) :
    20 ≤ t.doff.toNat * 4 ∧ t.bytes.length = t.doff.toNat * 4 := by
  simp only [TcpHeader.WellFormed, Bool.and_eq_true, decide_eq_true_eq] at h
  simp only [TcpHeader.bytes, wire16, wire32, List.length_append, List.length_cons, List.length_nil]
  omega

section
variable {fb : Memory} {b n : Half}

/-- ETH_DECODE reads the fields laid out (30_encoding.md R101, 41_ethernet.md R170). -/
theorem ethRecordAt_of_holds {e : EthHeader} (h : fb.Holds b.toNat e.bytes) :
    ethRecordAt fb b n = ⟨e.dst, e.src, e.etype, (ethRecordAt fb b n).pay⟩ := by
  simp only [EthHeader.bytes, wire16, holds_append, holds_cons, holds_toList, List.length_append, Vector.length_toList,
    Nat.add_assoc, Nat.reduceAdd] at h
  simp only [ethRecordAt, h, be16_wire]

/-- IPV4_DECODE reads the fields laid out (30_encoding.md R102, R103, 42_ipv4.md R190). -/
theorem ipv4RecordAt_of_holds {i : Ipv4Header} (h : fb.Holds b.toNat i.bytes) :
    ipv4RecordAt fb b n = ⟨i.ver, lengthX4 i.ihl, i.ttl, i.proto, i.src, i.dst, (ipv4RecordAt fb b n).pay⟩ := by
  obtain ⟨hver, hihl⟩ := nibbles_append i.ver i.ihl
  simp only [Ipv4Header.bytes, holds_append, holds_cons, holds_toList, List.length_append, List.length_cons,
    List.length_nil, Vector.length_toList, Nat.add_assoc, Nat.reduceAdd] at h
  simp only [ipv4RecordAt, ipv4HlenAt, h, hver, hihl]

/-- TCP_DECODE reads the fields laid out (30_encoding.md R104, R105, 43_tcp.md R210). -/
theorem tcpRecordAt_of_holds {t : TcpHeader} (h : fb.Holds b.toNat t.bytes) :
    tcpRecordAt fb b n
      = ⟨t.sport, t.dport, t.seq, t.ack, lengthX4 t.doff, t.flags, (tcpRecordAt fb b n).pay⟩ := by
  simp only [TcpHeader.bytes, wire16, wire32, holds_append, holds_cons, List.length_append, List.length_cons,
    List.length_nil, Nat.add_assoc, Nat.reduceAdd] at h
  simp only [tcpRecordAt, tcpDoffAt, tcpWordAt, h, be16_wire, be32_wire, dataOffset_word, flagsOf_word]

end

/-! ### The whole frame -/

/-- A frame of `L` bytes that is an Ethernet, an IPv4 and a TCP header, and data behind them. -/
structure WireFrame (fb : Memory) (L : Half) (e : EthHeader) (i : Ipv4Header) (t : TcpHeader) (data : List Byte) :
    Prop where
  eth     : fb.Holds 0 e.bytes
  ipv4    : fb.Holds 14 i.bytes
  tcp     : fb.Holds (14 + i.ihl.toNat * 4) t.bytes
  len     : L.toNat = 14 + i.ihl.toNat * 4 + t.doff.toNat * 4 + data.length
  hlen    : 20 ≤ i.ihl.toNat * 4
  doff    : 20 ≤ t.doff.toNat * 4
  isIpv4  : e.etype = Config.ETHERTYPE_IPV4
  isTcp   : i.proto = Config.IPPROTO_TCP

theorem wireFrame_of_holdsFrame {m : Instance} {e : EthHeader} {i : Ipv4Header} {t : TcpHeader} {data : List Byte}
    (hm : m.holdsFrame (e.bytes ++ i.bytes ++ t.bytes ++ data)) (hi : i.WellFormed = true) (ht : t.WellFormed = true)
    (hetype : e.etype = Config.ETHERTYPE_IPV4) (hproto : i.proto = Config.IPPROTO_TCP) :
    WireFrame m.fb (BitVec.ofNat 16 (e.bytes ++ i.bytes ++ t.bytes ++ data).length) e i t data := by
  obtain ⟨hmax, -, hbytes⟩ := hm
  obtain ⟨hhlen, hilen⟩ := ipv4Header_length hi
  obtain ⟨hdoff, htlen⟩ := tcpHeader_length ht
  have hholds : m.fb.Holds 0 (e.bytes ++ i.bytes ++ t.bytes ++ data) := by
    simpa only [Memory.Holds, Nat.zero_add] using hbytes
  simp only [holds_append, List.length_append, ethHeader_length, hilen, Nat.zero_add] at hholds
  obtain ⟨⟨⟨heth, hipv4⟩, htcp⟩, -⟩ := hholds
  refine ⟨heth, hipv4, htcp, ?_, hhlen, hdoff, hetype, hproto⟩
  rw [BitVec.toNat_ofNat, Nat.mod_eq_of_lt (show _ < 2 ^ 16 from Nat.lt_succ_of_le hmax)]
  simp only [List.length_append, ethHeader_length, hilen, htlen]

section
variable {fb : Memory} {L : Half} {e : EthHeader} {i : Ipv4Header} {t : TcpHeader} {data : List Byte}
variable (w : WireFrame fb L e i t data)
include w

theorem WireFrame.long : ¬ L.toNat < 14 := by
  have := w.len
  omega

theorem WireFrame.frameEth_eq :
    frameEth fb L = ⟨e.dst, e.src, e.etype, sliceOf 14 (i.ihl.toNat * 4 + t.doff.toNat * 4 + data.length)⟩ := by
  obtain ⟨hoff, hlen⟩ := frameEth_pay fb w.long
  rw [← eq_sliceOf ⟨hoff, hlen.trans (by have := w.len; omega)⟩]
  exact ethRecordAt_of_holds (b := 0) w.eth

theorem WireFrame.ipv4_holds : fb.Holds (frameEth fb L).pay.off.toNat i.bytes := by
  rw [(frameEth_pay fb w.long).1]
  exact w.ipv4

/-- The IHL laid out is the header length the frame declares. -/
theorem WireFrame.frameHlen_eq : frameHlen fb = i.ihl.toNat * 4 := by
  rw [← frameIpv4_hlen (len := L), frameIpv4, ipv4RecordAt_of_holds w.ipv4_holds]
  exact lengthX4_toNat i.ihl

theorem WireFrame.not_ipv4Short : ¬ Ipv4Short fb L := by
  have := w.len
  have := w.hlen
  rw [not_ipv4Short_iff, w.frameHlen_eq]
  omega

theorem WireFrame.frameIpv4_eq :
    frameIpv4 fb L = ⟨i.ver, lengthX4 i.ihl, i.ttl, i.proto, i.src, i.dst,
      sliceOf (14 + i.ihl.toNat * 4) (t.doff.toNat * 4 + data.length)⟩ := by
  obtain ⟨hoff, hlen⟩ := frameIpv4_pay w.long w.not_ipv4Short
  rw [w.frameHlen_eq] at hoff hlen
  rw [← eq_sliceOf ⟨hoff, hlen.trans (by have := w.len; omega)⟩]
  exact ipv4RecordAt_of_holds w.ipv4_holds

theorem WireFrame.tcp_holds : fb.Holds (frameIpv4 fb L).pay.off.toNat t.bytes := by
  rw [(frameIpv4_pay w.long w.not_ipv4Short).1, w.frameHlen_eq]
  exact w.tcp

/-- The data offset laid out is the header length the frame declares. -/
theorem WireFrame.frameDoff_eq : frameDoff fb = t.doff.toNat * 4 := by
  have hdoff : (frameTcp fb L).doff.toNat = frameDoff fb := frameDoffAt_toNat w.long w.not_ipv4Short
  rw [← hdoff, frameTcp, tcpRecordAt_of_holds w.tcp_holds]
  exact lengthX4_toNat t.doff

theorem WireFrame.not_tcpShort : ¬ TcpShort fb L := by
  have := w.len
  have := w.doff
  rw [TcpShort, w.frameHlen_eq, w.frameDoff_eq]
  omega

theorem WireFrame.frameTcp_eq :
    frameTcp fb L = ⟨t.sport, t.dport, t.seq, t.ack, lengthX4 t.doff, t.flags,
      sliceOf (14 + i.ihl.toNat * 4 + t.doff.toNat * 4) data.length⟩ := by
  obtain ⟨hoff, hlen⟩ := frameTcp_pay w.long w.not_ipv4Short w.not_tcpShort
  rw [w.frameHlen_eq, w.frameDoff_eq] at hoff hlen
  rw [← eq_sliceOf ⟨hoff, hlen.trans (by have := w.len; omega)⟩]
  exact tcpRecordAt_of_holds w.tcp_holds

/-- A frame laid out by the formats ends in TCP_DONE (44_dispatch.md R238). -/
theorem WireFrame.resultOf_eq : resultOf fb L = tcpDoneResult (frameEth fb L) (frameIpv4 fb L) (frameTcp fb L) := by
  have hethertype : CarriesIpv4 fb := frameEth_isIpv4.mp (by rw [w.frameEth_eq]; exact w.isIpv4)
  have hprotocol : (fb.read 23).toNat = 6 := frameIpv4_isTcp.mp (by rw [w.frameIpv4_eq]; exact w.isTcp)
  exact (resultOf_ending fb L).unique (.tcpDone w.long hethertype w.not_ipv4Short hprotocol w.not_tcpShort)

end

/-- A header length as the number that LEN_X4 makes of the nibble (40_boundary_and_extractors.md R148). -/
theorem lengthX4_eq (nib : Nibble) : lengthX4 nib = BitVec.ofNat 8 (nib.toNat * 4) := by
  rw [← lengthX4_toNat, BitVec.ofNat_toNat, BitVec.setWidth_eq]

/-- Settles O4: the frame ends in TCP_DONE, with the records of the three headers laid out. -/
theorem wireFrameIsDecodedFieldByField : Obligations.WireFrameIsDecodedFieldByField := by
  intro s e i t data frame hlen doff hetype hproto hi ht hframe
  have w := wireFrame_of_holdsFrame hframe hi ht hetype hproto
  obtain ⟨-, hframeLen, -⟩ := hframe
  refine ⟨_, dispatch_spec hframeLen, rfl, ?_⟩
  rw [writeResult_regs, w.resultOf_eq]
  refine ⟨tcpDoneResult_status _ _ _, ?_, ?_, ?_, ?_⟩
  · simp only [resultRegs, tcpDoneResult, w.frameEth_eq, Option.map_some, ethRegs, hetype]
    rfl
  · simp only [resultRegs, tcpDoneResult, w.frameIpv4_eq, Option.map_some, ipRegs, hproto, lengthX4_eq]
    rfl
  · simp only [resultRegs, tcpDoneResult, w.frameTcp_eq, Option.map_some, tcpRegs, lengthX4_eq]
    rfl
  · simp only [resultRegs, tcpDoneResult, w.frameTcp_eq]
    rfl

end Sys2Proof.Machine
end

section
/-! SUPPORT. The turns of the host one by one (30_encoding.md R124, 10_state.md R34, R48, R49, 70_reset_and_hazards.md
R300): each is its action on the instance the turn passes to. -/
namespace Sys2Proof.Machine

/-- A turn of the host passes to its instance, which is acted on with the turn off the schedule. -/
theorem step_hostAct {s u : State} {i : Nat} {a : HostAction} {rest : List Event} (he : s.events = .host i a :: rest)
    (hf : s.focus i = some u) : step s = hostAct i a (u.setEvents rest) :=
  (step_cons he).trans (onInstance_setEvents hf rest (hostAct i a))

section
variable (s : State)

/-! ### FB[o..] := bytes -/

/-- 70_reset_and_hazards.md R300 (a). -/
theorem hostWriteFb_tooLong (hb : s.here.busy = false) {bytes : List Byte} (h : 65535 < bytes.length) (o : Nat) :
    hostWriteFb o bytes s = .refused .frameTooLong := by
  rw [hostWriteFb, if_neg (by simp [hb])]
  exact if_pos h

/-- 20_memory.md R70: FB has no byte beyond offset 65534. -/
theorem hostWriteFb_beyond (hb : s.here.busy = false) {o : Nat} {bytes : List Byte} (h : bytes.length ≤ 65535)
    (hne : bytes ≠ []) (hend : 65535 < o + bytes.length) : hostWriteFb o bytes s = .fault .noSuchFbOffset := by
  rw [hostWriteFb, if_neg (by simp [hb])]
  exact (if_neg (Nat.not_lt.mpr h)).trans (if_pos ⟨hne, hend⟩)

/-- 30_encoding.md R124. -/
theorem hostWriteFb_stores (hb : s.here.busy = false) {o : Nat} {bytes : List Byte}
    (h : bytes = [] ∨ o + bytes.length ≤ 65535) :
    hostWriteFb o bytes s = .next (s.setHere (s.here.setFb (s.here.fb.writeBytes o bytes))) := by
  have hlen : ¬ 65535 < bytes.length := by
    rcases h with rfl | h
    · simp
    · omega
  rw [hostWriteFb, if_neg (by simp [hb])]
  exact (if_neg hlen).trans (if_neg fun ⟨hne, hend⟩ => h.elim hne (Nat.not_le.mpr hend))

/-! ### LEN := L -/

/-- 70_reset_and_hazards.md R300 (c). -/
theorem hostSetLen_busy (hb : s.here.busy = true) (l : Nat) :
    hostSetLen l s = .refused .hostWroteDuringTransaction := if_pos hb

/-- 70_reset_and_hazards.md R300 (a). -/
theorem hostSetLen_tooLong (hb : s.here.busy = false) {l : Nat} (h : 65535 < l) :
    hostSetLen l s = .refused .frameTooLong := by
  rw [hostSetLen, if_neg (by simp [hb])]
  exact if_pos h

/-- 10_state.md R48. -/
theorem hostSetLen_stores (hb : s.here.busy = false) {l : Nat} (h : l ≤ 65535) :
    hostSetLen l s = .next (s.setHere (s.here.setFrameLen (some (BitVec.ofNat 16 l)))) := by
  rw [hostSetLen, if_neg (by simp [hb])]
  exact if_neg (Nat.not_lt.mpr h)

/-! ### SUBMIT -/

/-- 70_reset_and_hazards.md R300 (d). -/
theorem hostSubmit_busy (hb : s.here.busy = true) : hostSubmit s = .refused .submitWhileBusy := if_pos hb

/-- 70_reset_and_hazards.md R300 (b). -/
theorem hostSubmit_noLength (hb : s.here.busy = false) (hl : s.here.frameLen = none) :
    hostSubmit s = .refused .frameLenNeverWritten := by
  rw [hostSubmit, if_neg (by simp [hb]), hl]

/-- 10_state.md R49, 44_dispatch.md R230. -/
theorem hostSubmit_accepts (hb : s.here.busy = false) {l : Half} (hl : s.here.frameLen = some l) :
    hostSubmit s = .next (s.setHere (((s.here.setBusy true).setCascade (Cascade.start l)).setRet .nothing)) := by
  rw [hostSubmit, if_neg (by simp [hb]), hl]

/-! ### WAIT -/

/-- 30_encoding.md R124: there is nothing to wait for. -/
theorem hostWait_idle (hb : s.here.busy = false) (i : Nat) : hostWait i s = .next s := if_neg (by simp [hb])

/-- 70_reset_and_hazards.md R305: the request in flight completes. -/
theorem hostWait_busy (hb : s.here.busy = true) (i : Nat) :
    hostWait i s = exec (.dispatch s.here.cascade.len) (s.setEvents (.host i .wait :: s.events)) := if_pos hb

/-! ### Reads -/

/-- 10_state.md R34. -/
theorem hostRead_value {r : ResultReg} {v : Value} (hv : regValue s.here.regs r = some v)
    (hlegal : r = .STATUS → statusLegal s.here.regs.status = true) : hostRead r s = .next (s.setHostData v) := by
  simp only [hostRead, hv]
  exact if_neg fun ⟨hr, hbad⟩ => by simp [hlegal hr] at hbad

/-- 93_implementation_defined.md I8. -/
theorem hostRead_illegal (h : statusLegal s.here.regs.status = false) :
    hostRead .STATUS s = .fault .illegalStatus := if_pos ⟨rfl, h⟩

/-- 10_state.md R48. -/
theorem hostReadLen_value {l : Half} (hl : s.here.frameLen = some l) :
    hostReadLen s = .next (s.setHostData (.u16 l)) := by
  simp only [hostReadLen, hl, hostObtains]

/-- 93_implementation_defined.md I7. -/
theorem hostReadLen_noValue (hl : s.here.frameLen = none) : hostReadLen s = .fault .readOfNoValue := by
  simp only [hostReadLen, hl]

/-- 20_memory.md R90. -/
theorem hostReadFb_value {o n : Nat} (h : o + n ≤ 65535) :
    hostReadFb o n s = .next (s.setHostData (.bytes (s.here.fb.bytes o n).toList)) :=
  if_neg fun ⟨_, hend⟩ => Nat.not_le.mpr hend h

/-- 20_memory.md R70: FB has no byte beyond offset 65534. -/
theorem hostReadFb_beyond {o n : Nat} (hn : n ≠ 0) (hend : 65535 < o + n) :
    hostReadFb o n s = .fault .noSuchFbOffset := if_pos ⟨hn, hend⟩

end

/-- Settles O40: the request is accepted, and its cascade starts with ETH_DECODE. -/
theorem submitStartsTheCascade : Obligations.SubmitStartsTheCascade := by
  intro s u i rest L he hf hb hl
  obtain ⟨-, -, -, hdata, -⟩ := focus_spec hf
  have hstep := (step_hostAct he hf).trans (hostSubmit_accepts (u.setEvents rest) hb hl)
  exact ⟨_, hstep, rfl, rfl, rfl, rfl, hl, rfl, rfl, rfl, hdata⟩

/-- Settles O41: each broken duty is one refused form of its action. -/
theorem brokenHostDutiesAreRefused : Obligations.BrokenHostDutiesAreRefused := by
  intro s u i rest hf
  exact ⟨fun l he hb h => (step_hostAct he hf).trans (hostSetLen_tooLong (u.setEvents rest) hb h),
    fun o bytes he hb h => (step_hostAct he hf).trans (hostWriteFb_tooLong (u.setEvents rest) hb h o),
    fun he hb hl => (step_hostAct he hf).trans (hostSubmit_noLength (u.setEvents rest) hb hl),
    fun o bytes he hb => (step_hostAct he hf).trans (hostWriteFb_busy (u := u.setEvents rest) hb o bytes),
    fun l he hb => (step_hostAct he hf).trans (hostSetLen_busy (u.setEvents rest) hb l),
    fun he hb => (step_hostAct he hf).trans (hostSubmit_busy (u.setEvents rest) hb)⟩

/-- Settles O43: a read returns what the register holds, and a write to a result register or to BUSY does nothing. -/
theorem hostReadsAndNeverWritesResultRegisters : Obligations.HostReadsAndNeverWritesResultRegisters := by
  intro s u i rest hf
  refine ⟨fun r v he hv hlegal => (step_hostAct he hf).trans (hostRead_value (u.setEvents rest) hv hlegal),
    fun r he hv => (step_hostAct he hf).trans (hostRead_noValue hv),
    fun he h => (step_hostAct he hf).trans (hostRead_illegal (u.setEvents rest) h),
    fun r v he => step_hostAct he hf, fun l t he h => ?_, fun v he => step_hostAct he hf⟩
  by_contra hb
  cases ((step_hostAct he hf).trans (hostSetLen_busy (u.setEvents rest) (Bool.of_not_eq_false hb) l)).symm.trans h

/-- Settles O44: each read returns what the instance then holds, or faults where it holds nothing. -/
theorem hostReadsRequestRegistersAndFb : Obligations.HostReadsRequestRegistersAndFb := by
  intro s u i rest hf
  refine ⟨fun he => ⟨_, step_hostAct he hf, ?_⟩,
    fun L he hl => (step_hostAct he hf).trans (hostReadLen_value (u.setEvents rest) hl),
    fun he hl => (step_hostAct he hf).trans (hostReadLen_noValue (u.setEvents rest) hl),
    fun o n he h => ⟨_, (step_hostAct he hf).trans (hostReadFb_value (u.setEvents rest) h), Vector.length_toList,
      fun j hj => getElem?_toList_bytes _ _ hj⟩,
    fun o n he hn hend => (step_hostAct he hf).trans (hostReadFb_beyond (u.setEvents rest) hn hend)⟩
  change BitVec.ofBool u.here.busy = 1 ↔ _
  cases u.here.busy <;> decide

/-- Settles O45: the write is `Memory.writeBytes`, which stores the bytes where it says and leaves the others. -/
theorem hostWritesStoreWhatTheySay : Obligations.HostWritesStoreWhatTheySay := by
  intro s u i rest hf
  refine ⟨fun o bytes he hb hwf hfit => ?stores,
    fun o bytes he hb hne hlen hend =>
      (step_hostAct he hf).trans (hostWriteFb_beyond (u.setEvents rest) hb hlen hne hend),
    fun l he hb hl => (step_hostAct he hf).trans (hostSetLen_stores (u.setEvents rest) hb hl),
    fun bytes he => step_hostAct he hf⟩
  case stores =>
    have hread := read_writeBytes hwf o bytes hfit
    have hstep := (step_hostAct he hf).trans (hostWriteFb_stores (u.setEvents rest) hb hfit)
    refine ⟨_, hstep, wf_writeBytes hwf o bytes hfit, fun k hk => ?_, fun a ha => ?_⟩
    · rw [List.getElem?_eq_getElem hk]
      simp [hread, hk]
    · refine (hread a).trans ?_
      rcases ha with ha | ha
      · exact if_neg (Nat.not_le.mpr ha)
      · simp [show bytes.length ≤ a - o by omega]

/-- Settles O46: on a busy instance WAIT is DISPATCH on the accepted length, which is FRAME_LEN, so it completes. -/
theorem waitLetsTheRequestComplete : Obligations.WaitLetsTheRequestComplete := by
  intro s u i rest hs he hf
  refine ⟨fun hb => (step_hostAct he hf).trans (hostWait_idle (u.setEvents rest) hb i), fun hb => ?_⟩
  obtain ⟨hl, -⟩ := (focus_inv hs hf).inFlight hb
  have hstep := (step_hostAct he hf).trans (hostWait_busy (u.setEvents rest) hb i)
  exact ⟨hstep, _, hstep.trans (dispatch_spec hl), rfl, resultRegs_done _, rfl⟩

end Sys2Proof.Machine
end

section
/-! SUPPORT. What an operation keeps, when it stops, and the turn that runs it. -/
namespace Sys2Proof.Machine

/-! ### The primitives outside their ranges -/

/-- Settles O6: the check of SLICE is the comparison, and only the offset can fail to fit. -/
theorem sliceCutsOrFails : Obligations.SliceCutsOrFails := by
  intro b len h s
  refine ⟨fun hlt => ?_,
    fun hle hfit => ⟨⟨b + h.zeroExtend 16, len - h.zeroExtend 16⟩, ?_, cut_off_toNat hfit, cut_len_toNat hle⟩,
    fun hle _ => ⟨⟨cutOffset b len h, len - h.zeroExtend 16⟩, ?_, cut_len_toNat hle⟩⟩
  · simp only [exec, execSlice, cutSlice_fail hlt]
    rfl
  · simp only [exec, execSlice, cutSlice_some hle, cutOffset_ok len hfit]
    rfl
  · simp only [exec, execSlice, cutSlice_some hle]
    rfl

/-- A primitive that reads outside the frame is a fault, whatever it would have read
(40_boundary_and_extractors.md R141). -/
theorem answer_outside {α : Type} {s : State} {a n : Nat} {v : α} {f : α → Value} (h : s.here.frameBytes < a + n) :
    answer (admitted s.here a n v) f s = .fault .readOutsideFrame := by
  rw [admitted_error v h]
  rfl

/-- Settles O11: each of the reads is admitted as a whole or not at all. -/
theorem readsOutsideTheFrameStop : Obligations.ReadsOutsideTheFrameStop :=
  fun _ _ _ => ⟨answer_outside, answer_outside, answer_outside, answer_outside, answer_outside⟩

/-! ### The decoders and DISPATCH inside the frame -/

section
variable {m : Instance} {b n : Half} {f : Fault}

theorem ethDecode_error (h : ethDecode m b n = .error f) : m.frameBytes < b.toNat + n.toNat := by
  by_contra hin
  cases (ethDecode_spec (Nat.not_lt.mp hin)).symm.trans h

theorem ipv4Decode_error (h : ipv4Decode m b n = .error f) : m.frameBytes < b.toNat + n.toNat := by
  by_contra hin
  cases (ipv4Decode_spec (Nat.not_lt.mp hin)).symm.trans h

theorem tcpDecode_error (h : tcpDecode m b n = .error f) : m.frameBytes < b.toNat + n.toNat := by
  by_contra hin
  cases (tcpDecode_spec (Nat.not_lt.mp hin)).symm.trans h

/-- The payload of an Ethernet record decoded from the first `n` bytes is a slice of them (10_state.md R47). -/
theorem ethFits_of_ethDecode {e : EthRecord} (hin : n.toNat ≤ m.frameBytes) (h : ethDecode m 0 n = .ok (.record e)) :
    ethFits n e = true := by
  rw [ethDecode_spec (by simpa using hin)] at h
  split at h
  · cases h
  next hn => cases h; exact ethFits_at m.fb n hn

/-- The payload of an IPv4 record decoded from the Ethernet payload is a slice of the same bytes (10_state.md R47). -/
theorem ipv4Fits_of_ipv4Decode {e : EthRecord} {i : Ipv4Record} (hin : n.toNat ≤ m.frameBytes) (he : ethFits n e = true)
    (h : ipv4Decode m e.pay.off e.pay.len = .ok (.record i)) : ipv4Fits n i = true := by
  obtain ⟨hoff, hend⟩ := (ethFits_iff _ _).mp he
  rw [ipv4Decode_spec (by omega)] at h
  split at h
  · cases h
  next hn => cases h; exact ipv4Fits_at m.fb hoff hend hn

/-- DISPATCH calls each decoder on a slice of its own length, so a length within the frame stops none of them
(40_boundary_and_extractors.md R141, 44_dispatch.md R230). -/
theorem runCascade_error (h : runCascade m n = .error f) : m.frameBytes < n.toNat := by
  by_contra hout
  have hin : n.toNat ≤ m.frameBytes := Nat.not_lt.mp hout
  unfold runCascade at h
  split at h
  next heth => exact hout (by simpa using ethDecode_error heth)
  · cases h
  next e heth =>
  have he := ethFits_of_ethDecode hin heth
  split at h
  · cases h
  split at h
  next hip =>
    have := ipv4Decode_error hip
    have := (ethFits_iff _ _).mp he
    omega
  · cases h
  next i hip =>
  have hi := ipv4Fits_of_ipv4Decode hin he hip
  split at h
  · cases h
  split at h
  next htcp =>
    have := tcpDecode_error htcp
    have := (ipv4Fits_iff _ _).mp hi
    omega
  · cases h
  · cases h

end

/-- A decoder's operation is a fault only where the decoder is. -/
theorem settle_fault {α : Type} {r : Except Fault (Decoded α)} {keep : α → State → State} {s : State} {f : Fault}
    (h : settle r keep s = .fault f) : r = .error f := by
  match r, h with
  | .error e, h => rw [Host.Outcome.fault.inj h]

/-- Settles O19: a decoder reads inside its slice, and DISPATCH gives each a slice of its length. -/
theorem decodersStopOnlyOutsideTheFrame : Obligations.DecodersStopOnlyOutsideTheFrame := by
  intro b n s f
  refine ⟨fun h => ethDecode_error (settle_fault h), fun h => ipv4Decode_error (settle_fault h),
    fun h => tcpDecode_error (settle_fault h), fun h => ?_⟩
  simp only [exec, execDispatch] at h
  split at h
  next hrun => exact runCascade_error hrun
  · cases h

/-- Settles O32: in each of the six endings TERM, the valid bits and the records are given. -/
theorem validBitsFollowTerm : Obligations.ValidBitsFollowTerm := by
  intro L s hl
  refine ⟨_, dispatch_spec hl, ?_⟩
  have hend := resultOf_ending s.here.fb L
  simp only [writeResult_regs, resultRegs_term, resultRegs_ethV, resultRegs_ipV, resultRegs_tcpV, and_true]
  generalize resultOf s.here.fb L = r at hend
  cases hend with
  | ethTrunc => simp [resultRegs, ethTruncResult, termCode]
  | ethUnhandled => simp [resultRegs, ethUnhandledResult, termCode]
  | ipv4Trunc => simp [resultRegs, ipv4TruncResult, termCode]
  | ipv4Unhandled => simp [resultRegs, ipv4UnhandledResult, termCode]
  | tcpTrunc => simp [resultRegs, tcpTruncResult, termCode]
  | tcpDone => simp [resultRegs, tcpDoneResult, termCode]

/-! ### What every operation keeps -/

/-- Only DISPATCH and RESULT_WRITE end a transaction: every other operation returns a value, and moves the cascade on or
leaves it (20_memory.md R77, 44_dispatch.md R230). -/
theorem exec_returns_or_moves {i : Instr} {s t : State} (hd : ∀ len, i ≠ .dispatch len) (hr : ∀ r, i ≠ .resultWrite r)
    (h : exec i s = .next t) :
    (∃ v, t = returns v s) ∨ ∃ v c, t = moves v c s ∧ c.len = s.here.cascade.len := by
  cases i with
  | dispatch len => exact absurd rfl (hd len)
  | resultWrite r => exact absurd rfl (hr r)
  | ethDecode b n =>
    rcases settle_next (h : settle _ _ _ = _) with ⟨l, -, rfl⟩ | ⟨a, -, rfl⟩ <;> exact .inr ⟨_, _, rfl, rfl⟩
  | ipv4Decode b n =>
    rcases settle_next (h : settle _ _ _ = _) with ⟨l, -, rfl⟩ | ⟨a, -, rfl⟩ <;> exact .inr ⟨_, _, rfl, rfl⟩
  | tcpDecode b n =>
    rcases settle_next (h : settle _ _ _ = _) with ⟨l, -, rfl⟩ | ⟨a, -, rfl⟩ <;> exact .inr ⟨_, _, rfl, rfl⟩
  | ethUnhandled | ipv4Unhandled | ethTrunc | ipv4Trunc | tcpTrunc | tcpDone | selL3 | selL4 =>
    cases h; exact .inr ⟨_, _, rfl, rfl⟩
  | check | slice | rdU8 | rdBe16 | rdBe32 | rdBytes | nibHi | nibLo | lenX4 | bit =>
    exact .inl (primitive_returns rfl hr h)

/-- Settles O49: FB, FRAME_LEN and the rest of the machine by `exec_keeps`, the registers and BUSY because a value
returned and a cascade moved on are neither. -/
theorem operationsChangeOnlyTheirOwn : Obligations.OperationsChangeOnlyTheirOwn := by
  intro i s t h
  obtain ⟨hbefore, hafter, hevents, hdata, hfb, hlen⟩ := exec_keeps h
  refine ⟨fun a => by rw [hfb], hlen, hbefore, hafter, hevents, hdata, fun hd hr => ?_⟩
  rcases exec_returns_or_moves hd hr h with ⟨v, rfl⟩ | ⟨v, c, rfl, hc⟩
  · exact ⟨rfl, rfl, rfl⟩
  · exact ⟨rfl, rfl, hc⟩

/-! ### The turn that runs an operation -/

/-- What is decoded is run. -/
theorem runWord_ok {w : OpWord} {op : Instr} (h : decode w = .ok op) (s : State) : runWord w s = exec op s := by
  simp only [runWord, h]

theorem advanceTurn_busy {s : State} (h : s.here.busy = true) :
    advanceTurn s = runWord (.selected s.here.cascade) s := if_pos h

theorem completeTurn_busy {s : State} (h : s.here.busy = true) :
    completeTurn s = exec (.dispatch s.here.cascade.len) s := if_pos h

/-- Settles O47: the turn passes to the instance, which runs what is decoded. -/
theorem stepRunsTheDecodedOperation : Obligations.StepRunsTheDecodedOperation := by
  intro s u i rest op hf
  refine ⟨fun he hb hop => ?advance, fun he hb => ?complete, fun p args he hop => ?evaluate⟩
  case advance =>
    calc step s = advanceTurn (u.setEvents rest) := (step_cons he).trans (onInstance_setEvents hf rest advanceTurn)
      _ = runWord (.selected u.here.cascade) (u.setEvents rest) := advanceTurn_busy hb
      _ = exec op (u.setEvents rest) := runWord_ok hop _
  case complete =>
    calc step s = completeTurn (u.setEvents rest) := (step_cons he).trans (onInstance_setEvents hf rest completeTurn)
      _ = exec (.dispatch u.here.cascade.len) (u.setEvents rest) := completeTurn_busy hb
  case evaluate =>
    calc step s = runWord (.call p args) (u.setEvents rest) := (step_cons he).trans (onInstance_setEvents hf rest _)
      _ = exec op (u.setEvents rest) := runWord_ok hop _

end Sys2Proof.Machine
end

section
/-! SUPPORT. The invariant of Safety.lean, turn by turn, and what every step keeps of the instances. -/
namespace Sys2Proof.Machine

/-! ### The instances that a step leaves -/

/-- A turn changes the instances in place. -/
theorem TurnOn.length_instances {u t : State} (h : TurnOn u t) : t.instances.length = u.instances.length := by
  obtain ⟨hbefore, hafter, -⟩ := h
  simp [State.instances, hbefore, hafter]

/-- Settles O53: a reset reaches every instance in place, and every other turn the instance it is given to. -/
theorem instancesShareNoState : Obligations.InstancesShareNoState := by
  intro s t e rest he h
  by_cases hr : e = .reset
  · subst hr
    cases (step_cons he).symm.trans h
    refine ⟨by simp, ?_⟩
    rintro i k - (⟨a, ha⟩ | ha | ha | ⟨p, args, ha⟩) <;> cases ha
  · obtain ⟨j, u, htarget, hf, hturn⟩ := step_turn he hr h
    obtain ⟨hinst, hlen, -, -, -⟩ := focus_spec hf
    refine ⟨hturn.length_instances.trans (congrArg List.length hinst), fun i k hik hi => ?_⟩
    have hij : some i = some j := by
      rw [← htarget]
      rcases hi with ⟨a, rfl⟩ | rfl | rfl | ⟨p, args, rfl⟩ <;> rfl
    rw [hturn.getElem?, hlen, if_neg fun hkj => hik ((Option.some.inj hij).trans hkj.symm), hinst]
    rfl

/-- Settles O50: on a busy instance a turn writes neither FB nor FRAME_LEN, nor does the result update. -/
theorem frameIsStableDuringATransaction : Obligations.FrameIsStableDuringATransaction := by
  intro s t e rest k m m' he hr h hm hm' hb
  rcases step_at he hr h hm hm' with ⟨-, rfl⟩ | ⟨u, -, -, ⟨-, -, ⟨-, hkeep⟩ | ⟨-, r, hw⟩⟩, rfl, rfl⟩
  · exact ⟨rfl, rfl⟩
  · exact (hkeep hb).2
  · rw [hw]
    exact ⟨rfl, rfl⟩

/-! ### The invariant of one instance -/

/-- Settles O54: the instance after reset has canonical FB, the reset values, and no transaction. -/
theorem invariantHoldsAtReset : Obligations.InvariantHoldsAtReset := by
  intro n m hm
  obtain rfl := mem_resetWith hm
  exact ⟨rfl, .inl rfl, fun _ => rfl, nofun⟩

section
variable {m : Instance} (hm : m.Inv)
include hm

theorem Instance.Inv.resetKeepingFb : m.resetKeepingFb.Inv := ⟨hm.fbCanonical, .inl rfl, fun _ => rfl, nofun⟩

/-- The value an operation returns is in no part of the invariant. -/
theorem Instance.Inv.setRet (v : Value) : (m.setRet v).Inv := ⟨hm.fbCanonical, hm.regsLegal, hm.idleBlank, hm.inFlight⟩

/-- 20_memory.md R70. -/
theorem Instance.Inv.setFb {fb : Memory} (h : fb.wf = true) : (m.setFb fb).Inv :=
  ⟨h, hm.regsLegal, hm.idleBlank, hm.inFlight⟩

/-- FRAME_LEN of an idle instance can be any value (10_state.md R48). -/
theorem Instance.Inv.setFrameLen (hb : m.busy = false) (l : Option Half) : (m.setFrameLen l).Inv :=
  ⟨hm.fbCanonical, hm.regsLegal, hm.idleBlank, fun hb' => by cases hb.symm.trans hb'⟩

/-- A request is accepted on FRAME_LEN (10_state.md R49). -/
theorem Instance.Inv.accept {l : Half} (hl : m.frameLen = some l) :
    (((m.setBusy true).setCascade (Cascade.start l)).setRet .nothing).Inv :=
  ⟨hm.fbCanonical, hm.regsLegal, nofun, fun _ => ⟨hl, rfl⟩⟩

end

section
variable {u t : State} (hu : u.here.Inv)
include hu

/-- A well-formed result is written (44_dispatch.md R244, R245). -/
theorem writeResult_inv {r : Result} (hr : r.WellFormed = true) : (writeResult r u).here.Inv :=
  ⟨hu.fbCanonical, .inr ⟨r, hr, rfl⟩, fun _ => rfl, nofun⟩

/-- A request in flight moves on, and stays consistent (44_dispatch.md R230). -/
theorem moves_inv {v : Value} {c : Cascade} (hc : cascadeConsistent c = true) (hlen : c.len = u.here.cascade.len)
    (hb : u.here.busy = true) : (moves v c u).here.Inv := by
  obtain ⟨hl, -⟩ := hu.inFlight hb
  refine ⟨hu.fbCanonical, hu.regsLegal, fun hidle => ?_, fun _ => ⟨hl.trans (congrArg some hlen.symm), hc⟩⟩
  cases hb.symm.trans hidle

/-! ### The invariant and the turns -/

/-- DISPATCH on the accepted length (44_dispatch.md R230). -/
theorem dispatch_inv (hb : u.here.busy = true) (h : exec (.dispatch u.here.cascade.len) u = .next t) : t.here.Inv := by
  obtain ⟨hl, -⟩ := hu.inFlight hb
  obtain ⟨-, hwf, -⟩ := runCascade_spec hl
  cases (dispatch_spec hl).symm.trans h
  exact writeResult_inv hu hwf

theorem completeTurn_inv (h : completeTurn u = .next t) : t.here.Inv := by
  by_cases hb : u.here.busy = true
  · exact dispatch_inv hu hb ((completeTurn_busy hb).symm.trans h)
  · cases (completeTurn_idle (Bool.of_not_eq_true hb)).symm.trans h
    exact hu

theorem advanceTurn_inv (h : advanceTurn u = .next t) : t.here.Inv := by
  by_cases hb : u.here.busy = true
  · obtain ⟨hl, hc⟩ := hu.inFlight hb
    obtain ⟨op, hop, hx⟩ := selected_spec hl hc
    replace h : exec op u = .next t := by rwa [advanceTurn_busy hb, runWord_ok hop] at h
    rcases hx with ⟨r, rfl, hr, -⟩ | ⟨v, c, hmoves, hc', hlen, -⟩
    · cases h
      exact writeResult_inv hu hr
    · cases hmoves.symm.trans h
      exact moves_inv hu hc' hlen hb
  · cases (advanceTurn_idle (Bool.of_not_eq_true hb)).symm.trans h
    exact hu

theorem hostWriteFb_inv {o : Nat} {bytes : List Byte} (h : hostWriteFb o bytes u = .next t) : t.here.Inv := by
  unfold hostWriteFb at h
  split at h
  · cases h
  split at h
  · cases h
  split at h
  · cases h
  next hfit =>
    cases h
    refine hu.setFb (wf_writeBytes hu.fbCanonical o bytes ?_)
    exact or_iff_not_imp_left.mpr fun hne => Nat.not_lt.mp fun hend => hfit ⟨hne, hend⟩

theorem hostSetLen_inv {l : Nat} (h : hostSetLen l u = .next t) : t.here.Inv := by
  unfold hostSetLen at h
  split at h
  · cases h
  next hb =>
    split at h
    · cases h
    · cases h
      exact hu.setFrameLen (Bool.of_not_eq_true hb) _

theorem hostSubmit_inv (h : hostSubmit u = .next t) : t.here.Inv := by
  unfold hostSubmit at h
  split at h
  · cases h
  · split at h
    · cases h
    next hl =>
      cases h
      exact hu.accept hl

theorem hostWait_inv {i : Nat} (h : hostWait i u = .next t) : t.here.Inv := by
  by_cases hb : u.here.busy = true
  · exact dispatch_inv (u := u.setEvents (.host i .wait :: u.events)) hu hb ((hostWait_busy u hb i).symm.trans h)
  · cases (hostWait_idle u (Bool.of_not_eq_true hb) i).symm.trans h
    exact hu

theorem hostAct_inv {i : Nat} {a : HostAction} (h : hostAct i a u = .next t) : t.here.Inv := by
  cases a with
  | writeFb o bytes => exact hostWriteFb_inv hu h
  | setLen l => exact hostSetLen_inv hu h
  | submit => exact hostSubmit_inv hu h
  | wait => exact hostWait_inv hu h
  | read r => rwa [hostRead_here h]
  | readFb o n => rwa [hostReadFb_here h]
  | decode | readBusy | writeReg | writeBusy => cases h; exact hu
  | readLen =>
    simp only [hostAct, hostReadLen] at h
    split at h
    · cases h
    · cases h; exact hu
  | readAt addr =>
    simp only [hostAct, hostReadAt] at h
    split at h
    · rwa [hostRead_here h]
    · split at h
      · rwa [hostReadFb_here h]
      · cases h
  | writeAt addr v =>
    simp only [hostAct, hostWriteAt] at h
    split at h
    · cases h; exact hu
    · split at h
      · exact hostWriteFb_inv hu h
      · cases h

/-- Whatever the turn, its instance has the invariant after it. -/
theorem step_here_inv {s : State} {e : Event} {rest : List Event} {k : Nat} (he : s.events = e :: rest)
    (h : step s = .next t) (hk : e.target = some k) (hf : (s.setEvents rest).focus k = some u) : t.here.Inv := by
  rw [step_cons he] at h
  cases e with
  | reset => cases hk
  | host i a =>
    cases hk
    simp only [takeTurn, onInstance, hf] at h
    exact hostAct_inv hu h
  | complete i =>
    cases hk
    simp only [takeTurn, onInstance, hf] at h
    exact completeTurn_inv hu h
  | advance i =>
    cases hk
    simp only [takeTurn, onInstance, hf] at h
    exact advanceTurn_inv hu h
  | evaluate i p args =>
    cases hk
    simp only [takeTurn, onInstance, hf] at h
    obtain ⟨v, rfl⟩ := runWord_call_returns h
    exact hu.setRet v

end

/-- A turn that keeps the invariant of its instance keeps that of the machine. -/
theorem TurnOn.inv {u t : State} (h : TurnOn u t) (hu : u.Inv) (ht : t.here.Inv) : t.Inv := by
  obtain ⟨hbefore, hafter, -⟩ := h
  intro m hm
  simp only [State.Inv, State.instances, List.mem_append, List.mem_cons] at hu hm
  rw [hbefore, hafter] at hm
  rcases hm with hm | rfl | hm
  · exact hu m (.inl hm)
  · exact ht
  · exact hu m (.inr (.inr hm))

/-- Settles O55: reset leaves every instance idle, and every other turn keeps the invariant of the instance it is given
to. -/
theorem everyStepKeepsTheInvariant : Obligations.EveryStepKeepsTheInvariant := by
  intro s t hs h
  cases he : s.events with
  | nil =>
    have hstep : step s = .next s := by simp only [step, nextTurn, he]
    cases hstep.symm.trans h
    exact hs
  | cons e rest =>
    by_cases hr : e = .reset
    · subst hr
      cases (step_cons he).symm.trans h
      intro m hm
      rw [State.resetInstances_instances, State.setEvents_instances, List.mem_map] at hm
      obtain ⟨m, hm, rfl⟩ := hm
      exact (hs m hm).resetKeepingFb
    · obtain ⟨k, u, hk, hf, hturn⟩ := step_turn he hr h
      obtain ⟨hinst, -⟩ := focus_spec hf
      have hu : u.Inv := fun m hm => hs m (hinst ▸ hm)
      exact hturn.inv hu (step_here_inv (focus_inv (s := s.setEvents rest) hs hf) he h hk hf)

/-! ### What stops a run -/

/-- Where the outcome is a stop, the host has brought it about: the fault is one of its own reads or writes, and the turn
did select an operation. -/
def StopsByHost : Host.Outcome State Fault Refusal → Prop
  | .next _ => True
  | .fault f => f.ofHost = true
  | .refused (.undecodable _) => False
  | .refused _ => True

theorem StopsByHost.sound {o : Host.Outcome State Fault Refusal} (h : StopsByHost o) :
    (∀ f, o = .fault f → f.ofHost = true) ∧ ∀ d, o ≠ .refused (.undecodable d) := by
  constructor
  · rintro f rfl
    exact h
  · rintro d rfl
    exact h

theorem hostWriteFb_stops (o : Nat) (bytes : List Byte) (u : State) : StopsByHost (hostWriteFb o bytes u) := by
  unfold hostWriteFb
  split
  · trivial
  split
  · trivial
  split
  · rfl
  · trivial

theorem hostRead_stops (r : ResultReg) (u : State) : StopsByHost (hostRead r u) := by
  unfold hostRead
  split
  · rfl
  split
  · rfl
  · trivial

theorem hostReadFb_stops (o n : Nat) (u : State) : StopsByHost (hostReadFb o n u) := by
  unfold hostReadFb
  split
  · rfl
  · trivial

section
variable {u : State} (hu : u.here.Inv)
include hu

theorem dispatch_stops (hb : u.here.busy = true) : StopsByHost (exec (.dispatch u.here.cascade.len) u) := by
  rw [dispatch_spec (hu.inFlight hb).1]
  trivial

theorem completeTurn_stops : StopsByHost (completeTurn u) := by
  by_cases hb : u.here.busy = true
  · rw [completeTurn_busy hb]
    exact dispatch_stops hu hb
  · rw [completeTurn_idle (Bool.of_not_eq_true hb)]
    trivial

theorem advanceTurn_stops : StopsByHost (advanceTurn u) := by
  by_cases hb : u.here.busy = true
  · obtain ⟨hl, hc⟩ := hu.inFlight hb
    obtain ⟨op, hop, hx⟩ := selected_spec hl hc
    rw [advanceTurn_busy hb, runWord_ok hop]
    rcases hx with ⟨r, rfl, -⟩ | ⟨v, c, hmoves, -⟩
    · trivial
    · rw [hmoves]
      trivial
  · rw [advanceTurn_idle (Bool.of_not_eq_true hb)]
    trivial

theorem hostAct_stops (i : Nat) (a : HostAction) : StopsByHost (hostAct i a u) := by
  cases a with
  | writeFb o bytes => exact hostWriteFb_stops o bytes u
  | read r => exact hostRead_stops r u
  | readFb o n => exact hostReadFb_stops o n u
  | decode | readBusy | writeReg | writeBusy => trivial
  | setLen l =>
    simp only [hostAct, hostSetLen]
    split
    · trivial
    split
    · trivial
    · trivial
  | submit =>
    simp only [hostAct, hostSubmit]
    split
    · trivial
    split
    · trivial
    · trivial
  | wait =>
    simp only [hostAct]
    by_cases hb : u.here.busy = true
    · rw [hostWait_busy u hb]
      exact dispatch_stops (u := u.setEvents _) hu hb
    · rw [hostWait_idle u (Bool.of_not_eq_true hb)]
      trivial
  | readLen =>
    simp only [hostAct, hostReadLen]
    split
    · rfl
    · trivial
  | readAt addr =>
    simp only [hostAct, hostReadAt]
    split
    · exact hostRead_stops _ u
    split
    · exact hostReadFb_stops _ 1 u
    · trivial
  | writeAt addr v =>
    simp only [hostAct, hostWriteAt]
    split
    · trivial
    split
    · exact hostWriteFb_stops _ _ u
    · trivial

end

/-- A turn is refused where there is no such instance, and is otherwise what the instance does. -/
theorem onInstance_stops {s : State} {i : Nat} {f : State → Host.Outcome State Fault Refusal} (hs : s.Inv)
    (h : ∀ u : State, u.here.Inv → StopsByHost (f u)) : StopsByHost (onInstance i f s) := by
  unfold onInstance
  split
  · trivial
  next u hf => exact h u (focus_inv hs hf)

/-- Settles O56: under the invariant DISPATCH and every single operation complete, so a turn of a run stops by what the
host reads or writes alone. -/
theorem noRunReadsOutsideTheFrame : Obligations.NoRunReadsOutsideTheFrame := by
  intro s e rest hs he hrun
  refine StopsByHost.sound ?_
  rw [step_cons he]
  have hs' : (s.setEvents rest).Inv := hs
  cases e with
  | reset => trivial
  | host i a => exact onInstance_stops hs' fun u hu => hostAct_stops hu i a
  | complete i => exact onInstance_stops hs' fun u hu => completeTurn_stops hu
  | advance i => exact onInstance_stops hs' fun u hu => advanceTurn_stops hu
  | evaluate i p args => cases hrun

/-! ### What the registers hold -/

/-- The ranges of a well-formed result: the records of each terminal state, whose payloads end where its final payload
ends (10_state.md R46, R47). -/
theorem result_ranges {r : Result} (h : r.WellFormed = true) :
    (∀ e, r.eth = some e → e.pay.off.toNat = 14
        ∧ e.pay.off.toNat + e.pay.len.toNat = r.fin.off.toNat + r.fin.len.toNat)
    ∧ (∀ i, r.ip = some i → (20 ≤ i.hlen.toNat ∧ i.hlen.toNat ≤ 60 ∧ i.hlen.toNat % 4 = 0)
        ∧ i.pay.off.toNat = 14 + i.hlen.toNat
        ∧ i.pay.off.toNat + i.pay.len.toNat = r.fin.off.toNat + r.fin.len.toNat)
    ∧ (∀ t, r.tcp = some t → (20 ≤ t.doff.toNat ∧ t.doff.toNat ≤ 60 ∧ t.doff.toNat % 4 = 0)
        ∧ 54 ≤ t.pay.off.toNat ∧ t.pay.off.toNat ≤ 134
        ∧ t.pay.off.toNat + t.pay.len.toNat = r.fin.off.toNat + r.fin.len.toNat)
    ∧ (r.fin.off.toNat = 0 ∨ r.fin.off.toNat = 14 ∨ (34 ≤ r.fin.off.toNat ∧ r.fin.off.toNat ≤ 74)
        ∨ (54 ≤ r.fin.off.toNat ∧ r.fin.off.toNat ≤ 134)) := by
  obtain ⟨term, eth, ip, tcp, fin⟩ := r
  simp only [Result.WellFormed, Bool.and_eq_true] at h
  obtain ⟨-, h⟩ := h
  split at h
  case h_1 =>
    simp only [Bool.and_eq_true, decide_eq_true_eq] at h
    exact ⟨nofun, nofun, nofun, .inl (congrArg BitVec.toNat h.1)⟩
  case h_2 e | h_3 e =>
    simp only [Bool.and_eq_true, decide_eq_true_eq, ethWf_iff] at h
    obtain ⟨⟨-, -, hoff⟩, rfl⟩ := h
    exact ⟨by rintro _ ⟨⟩; exact ⟨hoff, rfl⟩, nofun, nofun, .inr (.inl hoff)⟩
  case h_4 e i | h_5 e i =>
    simp only [Bool.and_eq_true, decide_eq_true_eq, ethWf_iff, ipv4Wf_iff, sameEnd_iff] at h
    obtain ⟨⟨⟨⟨-, -, he⟩, -, hlen, hi⟩, hend⟩, rfl⟩ := h
    exact ⟨by rintro _ ⟨⟩; exact ⟨he, hend⟩, by rintro _ ⟨⟩; exact ⟨hlen, hi, rfl⟩, nofun,
      by dsimp only; omega⟩
  case h_6 e i t =>
    simp only [Bool.and_eq_true, decide_eq_true_eq, ethWf_iff, ipv4Wf_iff, tcpWf_iff, sameEnd_iff] at h
    obtain ⟨⟨⟨⟨⟨⟨⟨-, -, he⟩, -, hlen, hi⟩, -, hdoff, ht⟩, hei⟩, hit⟩, hoff⟩, rfl⟩ := h
    exact ⟨by rintro _ ⟨⟩; exact ⟨he, hei.trans hit⟩, by rintro _ ⟨⟩; exact ⟨hlen, hi, hit⟩,
      by rintro _ ⟨⟩; exact ⟨hdoff, by omega, by omega, rfl⟩, by dsimp only; omega⟩
  · cases h

/-- Settles O57: the registers hold a well-formed result, whose payloads all end where its final payload ends. -/
theorem resultRegistersHoldLegalValues : Obligations.ResultRegistersHoldLegalValues := by
  intro s m hs hm fin hfin L
  rcases (hs m hm).regsLegal with hreset | ⟨r, hwf, hr⟩
  · rw [hreset] at hfin
    cases hfin
  obtain ⟨heth, hip, htcp, hrange⟩ := result_ranges hwf
  rw [hr] at hfin ⊢
  obtain rfl : r.fin = fin := Option.some.inj hfin
  refine ⟨fun e he => ?_, fun i hi => ?_, fun t ht => ?_, hrange⟩
  · obtain ⟨e, hre, rfl⟩ := Option.map_eq_some_iff.mp he
    obtain ⟨hoff, hend⟩ := heth e hre
    exact ⟨BitVec.eq_of_toNat_eq hoff, hend⟩
  · obtain ⟨i, hri, rfl⟩ := Option.map_eq_some_iff.mp hi
    obtain ⟨⟨hleast, hmost, hmod⟩, hoff, hend⟩ := hip i hri
    simp only [ipRegs]
    exact ⟨hleast, hmost, hmod, by omega, by omega, hend⟩
  · obtain ⟨t, hrt, rfl⟩ := Option.map_eq_some_iff.mp ht
    obtain ⟨⟨hleast, hmost, hmod⟩, hlow, hhigh, hend⟩ := htcp t hrt
    exact ⟨hleast, hmost, hmod, hlow, hhigh, hend⟩

end Sys2Proof.Machine
end

section
/-! SUPPORT. A transaction taken one operation at a time (44_dispatch.md R230, R247): the result that a request in
flight leads to stays the same, and is written after at most seven operations. -/
namespace Sys2Proof.Machine

/-! ### The result that a request in flight leads to -/

/-- The result of a frame behind its Ethernet and IPv4 records (44_dispatch.md R230). -/
def resultAfterIpv4 (fb : Memory) (e : EthRecord) (i : Ipv4Record) : Result :=
  if i.proto ≠ Config.IPPROTO_TCP then ipv4UnhandledResult e i
  else if i.pay.len.toNat < 14 ∨ (tcpDoffAt fb i.pay.off).toNat < 20
      ∨ i.pay.len.toNat < (tcpDoffAt fb i.pay.off).toNat then tcpTruncResult e i
  else tcpDoneResult e i (tcpRecordAt fb i.pay.off i.pay.len)

/-- The result of a frame behind its Ethernet record (44_dispatch.md R230). -/
def resultAfterEth (fb : Memory) (e : EthRecord) : Result :=
  if e.etype ≠ Config.ETHERTYPE_IPV4 then ethUnhandledResult e
  else if e.pay.len.toNat < 20 ∨ e.pay.len.toNat < (ipv4HlenAt fb e.pay.off).toNat
      ∨ (ipv4HlenAt fb e.pay.off).toNat < 20 then ipv4TruncResult e
  else resultAfterIpv4 fb e (ipv4RecordAt fb e.pay.off e.pay.len)

/-- The result of a whole frame, layer by layer. -/
theorem resultOf_eq_after (fb : Memory) (len : Half) :
    resultOf fb len = if len.toNat < 14 then ethTruncResult len else resultAfterEth fb (ethRecordAt fb 0 len) := rfl

/-- The result that a request in flight leads to from the place it is at; at a place that no transaction passes through,
that of the whole frame. -/
def resultFrom (fb : Memory) (c : Cascade) : Result :=
  match c.sel, c.eth, c.ip, c.tcp with
  | .ethTypeMux, some e, _, _ => resultAfterEth fb e
  | .ethertype16 _ _, some e, _, _ => resultAfterEth fb e
  | .ipProtoMux, some e, some i, _ => resultAfterIpv4 fb e i
  | .ipproto8 _ _, some e, some i, _ => resultAfterIpv4 fb e i
  | .raised .eth, _, _, _ => ethTruncResult c.len
  | .raised .ipv4, some e, _, _ => ipv4TruncResult e
  | .raised .tcp, some e, some i, _ => tcpTruncResult e i
  | .returned, some e, some i, some t => tcpDoneResult e i t
  | .finished r, _, _, _ => r
  | _, _, _, _ => resultOf fb c.len

/-- The result that the request in flight leads to is written, or the request moves on and leads to the same result. -/
def KeepsResult (s t : State) : Prop :=
  t = writeResult (resultFrom s.here.fb s.here.cascade) s
    ∨ ∃ v c, t = moves v c s ∧ resultFrom s.here.fb c = resultFrom s.here.fb s.here.cascade

section
variable {s : State} {len : Half}

/-- A terminal state concludes with the result that its place leads to. -/
theorem keepsResult_concludes {r : Result} (h : resultFrom s.here.fb s.here.cascade = r) :
    KeepsResult s (concludes r s) := .inr ⟨_, _, rfl, h.symm⟩

theorem ethDecode_keepsResult (hl : s.here.frameLen = some len)
    (hc : s.here.cascade = ⟨len, none, none, none, .always⟩) :
    ∃ t, exec (.ethDecode 0 len) s = .next t ∧ KeepsResult s t := by
  refine ⟨_, exec_ethDecode (by rw [frameBytes_of_frameLen hl]; simp), ?_⟩
  by_cases h : len.toNat < 14
  · rw [if_pos h]
    exact .inr ⟨_, _, rfl, by simp [hc, resultFrom, resultOf_eq_after, h]⟩
  · rw [if_neg h]
    exact .inr ⟨_, _, rfl, by simp [hc, resultFrom, resultOf_eq_after, h]⟩

theorem ipv4Decode_keepsResult {e : EthRecord} {d : List Byte} (hl : s.here.frameLen = some len)
    (hc : s.here.cascade = ⟨len, some e, none, none, .ethertype16 d e.pay⟩) (he : ethFits len e = true)
    (ht : e.etype = Config.ETHERTYPE_IPV4) :
    ∃ t, exec (.ipv4Decode e.pay.off e.pay.len) s = .next t ∧ KeepsResult s t := by
  obtain ⟨-, hend⟩ := (ethFits_iff _ _).mp he
  refine ⟨_, exec_ipv4Decode (by rw [frameBytes_of_frameLen hl]; omega), ?_⟩
  split
  next h => exact .inr ⟨_, _, rfl, by simp only [hc, resultFrom, resultAfterEth, ht, if_pos h]; rfl⟩
  next h => exact .inr ⟨_, _, rfl, by simp only [hc, resultFrom, resultAfterEth, ht, if_neg h]; rfl⟩

theorem tcpDecode_keepsResult {e : EthRecord} {i : Ipv4Record} {d : List Byte} (hl : s.here.frameLen = some len)
    (hc : s.here.cascade = ⟨len, some e, some i, none, .ipproto8 d i.pay⟩) (hi : ipv4Fits len i = true)
    (hp : i.proto = Config.IPPROTO_TCP) :
    ∃ t, exec (.tcpDecode i.pay.off i.pay.len) s = .next t ∧ KeepsResult s t := by
  obtain ⟨-, -, hend⟩ := (ipv4Fits_iff _ _).mp hi
  refine ⟨_, exec_tcpDecode (by rw [frameBytes_of_frameLen hl]; omega), ?_⟩
  split
  next h => exact .inr ⟨_, _, rfl, by simp only [hc, resultFrom, resultAfterIpv4, hp, if_pos h]; rfl⟩
  next h => exact .inr ⟨_, _, rfl, by simp only [hc, resultFrom, resultAfterIpv4, hp, if_neg h]; rfl⟩

end

/-- The operation that a consistent request selects keeps the result it leads to (44_dispatch.md R230). -/
theorem selected_keepsResult {s : State} (hl : s.here.frameLen = some s.here.cascade.len)
    (hc : cascadeConsistent s.here.cascade = true) :
    ∃ op t, decode (.selected s.here.cascade) = .ok op ∧ exec op s = .next t ∧ KeepsResult s t := by
  have hpl := place_of_consistent hc
  obtain ⟨c, hcc⟩ : ∃ c, s.here.cascade = c := ⟨_, rfl⟩
  rw [hcc] at hl hpl ⊢
  cases hpl with
  | always len =>
    obtain ⟨t, hx, ht⟩ := ethDecode_keepsResult hl hcc
    exact ⟨_, t, rfl, hx, ht⟩
  | ethTypeMux len e he => exact ⟨_, _, rfl, rfl, .inr ⟨_, _, rfl, by simp only [hcc, resultFrom]⟩⟩
  | ethertype16 len e he =>
    rw [decode_ethertype16 (c := ⟨len, some e, none, none, .always⟩) rfl]
    by_cases ht : e.etype = Config.ETHERTYPE_IPV4
    · obtain ⟨t, hx, hk⟩ := ipv4Decode_keepsResult hl hcc he ht
      exact ⟨_, t, if_pos ht, hx, hk⟩
    · exact ⟨_, _, if_neg ht, rfl, keepsResult_concludes (by simp only [hcc, resultFrom, resultAfterEth, if_pos ht])⟩
  | ipProtoMux len e i he ht hi => exact ⟨_, _, rfl, rfl, .inr ⟨_, _, rfl, by simp only [hcc, resultFrom]⟩⟩
  | ipproto8 len e i he ht hi =>
    rw [decode_ipproto8 (c := ⟨len, some e, some i, none, .always⟩) rfl rfl]
    by_cases hp : i.proto = Config.IPPROTO_TCP
    · obtain ⟨t, hx, hk⟩ := tcpDecode_keepsResult hl hcc hi hp
      exact ⟨_, t, if_pos hp, hx, hk⟩
    · exact ⟨_, _, if_neg hp, rfl, keepsResult_concludes (by simp only [hcc, resultFrom, resultAfterIpv4, if_pos hp])⟩
  | raisedEth len h | raisedIpv4 len e | raisedTcp len e i | returned len e i t =>
    exact ⟨_, _, rfl, rfl, keepsResult_concludes (by rw [hcc]; rfl)⟩
  | finished len e i t r hr hf => exact ⟨_, _, rfl, rfl, .inl (by rw [hcc]; rfl)⟩

/-! ### A run of single operations -/

theorem opsLeft_pos (sel : Selector) : 0 < opsLeft sel := by cases sel <;> simp [opsLeft]

theorem opsLeft_le (sel : Selector) : opsLeft sel ≤ 7 := by cases sel <;> simp [opsLeft]

/-- One operation of a consistent request writes the result it leads to, or moves it on towards the same result. -/
theorem advanceTurn_spec {s : State} (hb : s.here.busy = true) (hl : s.here.frameLen = some s.here.cascade.len)
    (hc : cascadeConsistent s.here.cascade = true) :
    advanceTurn s = .next (writeResult (resultFrom s.here.fb s.here.cascade) s)
      ∨ ∃ v c, advanceTurn s = .next (moves v c s) ∧ cascadeConsistent c = true ∧ c.len = s.here.cascade.len
          ∧ opsLeft c.sel < opsLeft s.here.cascade.sel
          ∧ resultFrom s.here.fb c = resultFrom s.here.fb s.here.cascade := by
  obtain ⟨op, t, hop, hx, hk⟩ := selected_keepsResult hl hc
  have hturn : advanceTurn s = .next t := by rw [advanceTurn_busy hb, runWord_ok hop, hx]
  rcases hk with rfl | ⟨v, c, rfl, hres⟩
  · exact .inl hturn
  obtain ⟨op', hop', hspec⟩ := selected_spec hl hc
  obtain rfl : op = op' := Except.ok.inj (hop.symm.trans hop')
  rcases hspec with ⟨r, rfl, -⟩ | ⟨v', c', hx', hcons, hlen, hless⟩
  · have hbusy : false = s.here.busy := congrArg (fun t : State => t.here.busy) (Host.Outcome.next.inj hx)
    cases hbusy.trans hb
  · have hmoved : moves v' c' s = moves v c s := Host.Outcome.next.inj (hx'.symm.trans hx)
    obtain rfl : c' = c := congrArg (fun t : State => t.here.cascade) hmoved
    exact .inr ⟨v, c', hturn, hcons, hlen, hless, hres⟩

/-- A run goes on from its first step. -/
theorem run_succ {s t : State} (h : step s = .next t) (n : Nat) :
    Host.Core.run core (n + 1) s = Host.Core.run core n t := by
  simp only [Host.Core.run]
  rw [show core.step s = .next t from h]

/-- A single operation of the instance that has the turn already. -/
theorem step_advance {s : State} {rest : List Event} (he : s.events = .advance s.before.length :: rest) :
    step s = advanceTurn (s.setEvents rest) :=
  (step_cons he).trans (onInstance_setEvents (focus_self s) rest advanceTurn)

/-- The whole transaction of the instance that has the turn already. -/
theorem step_complete {s : State} {rest : List Event} (he : s.events = .complete s.before.length :: rest) :
    step s = completeTurn (s.setEvents rest) :=
  (step_cons he).trans (onInstance_setEvents (focus_self s) rest completeTurn)

/-- An idle instance waits its turns out (60_exceptions.md R286). -/
theorem run_idle {n : Nat} {s : State} {rest : List Event} (hb : s.here.busy = false)
    (he : s.events = List.replicate n (.advance s.before.length) ++ rest) :
    Host.Core.run core n s = .next (s.setEvents rest) := by
  induction n generalizing s with
  | zero =>
    rw [show rest = s.events from he.symm]
    rfl
  | succ n ih =>
    have hstep := (step_advance he).trans (advanceTurn_idle hb)
    rw [run_succ hstep]
    exact ih hb rfl

/-- A consistent request in flight is completed by as many operations as it has left, with the result it leads to. -/
theorem run_advances {n : Nat} {s : State} {rest : List Event} (hb : s.here.busy = true)
    (hl : s.here.frameLen = some s.here.cascade.len) (hc : cascadeConsistent s.here.cascade = true)
    (hn : opsLeft s.here.cascade.sel ≤ n) (he : s.events = List.replicate n (.advance s.before.length) ++ rest) :
    Host.Core.run core n s = .next (writeResult (resultFrom s.here.fb s.here.cascade) (s.setEvents rest)) := by
  induction n generalizing s with
  | zero => exact absurd (opsLeft_pos _) (Nat.not_lt.mpr hn)
  | succ n ih =>
    let es := List.replicate n (.advance s.before.length) ++ rest
    have hstep : step s = advanceTurn (s.setEvents es) := step_advance he
    rcases advanceTurn_spec (s := s.setEvents es) hb hl hc with hturn | ⟨v, c, hturn, hcons, hlen, hless, hres⟩
    · rw [run_succ (hstep.trans hturn)]
      exact run_idle rfl rfl
    · rw [run_succ (hstep.trans hturn)]
      have hl' : s.here.frameLen = some c.len := hl.trans (congrArg some hlen.symm)
      have hn' : opsLeft c.sel ≤ n := Nat.le_of_lt_succ (hless.trans_le hn)
      refine (ih (s := moves v c (s.setEvents es)) hb hl' hcons hn' rfl).trans ?_
      exact congrArg (fun r => Host.Outcome.next (writeResult r (s.setEvents rest))) hres

/-- Settles O58: the request in flight has at most seven operations left, the last of which writes a result. -/
theorem everyTransactionCompletes : Obligations.EveryTransactionCompletes := by
  intro s rest hs hb he
  obtain ⟨hl, hc⟩ := (hs s.here (by simp [State.instances])).inFlight hb
  exact ⟨_, run_advances hb hl hc (opsLeft_le _) he, rfl, resultRegs_done _, rfl⟩

/-- Settles O59: a request just accepted leads to the result of the frame, which DISPATCH writes. -/
theorem oneStepEqualsTheSingleOperations : Obligations.OneStepEqualsTheSingleOperations := by
  intro s rest L hb hl hc
  have hlen : s.here.cascade.len = L := by rw [hc]; rfl
  have hcons : cascadeConsistent s.here.cascade = true := by rw [hc]; rfl
  have hres : resultFrom s.here.fb s.here.cascade = resultOf s.here.fb L := by rw [hc]; rfl
  rw [← hlen] at hl
  refine ⟨writeResult (resultOf s.here.fb L) (s.setEvents rest), ?_, ?_⟩
  · calc step (s.setEvents (.complete s.before.length :: rest))
        = completeTurn (s.setEvents rest) := step_complete rfl
      _ = exec (.dispatch s.here.cascade.len) (s.setEvents rest) := completeTurn_busy hb
      _ = _ := by rw [hlen]; exact dispatch_spec (hl.trans (congrArg some hlen))
  · rw [← hres]
    exact run_advances (s := s.setEvents _) hb hl hcons (opsLeft_le _) rfl

end Sys2Proof.Machine
end
